-- ==== Sys2Proof/Word.lean ====
section
/-! DEFINITION. The words the block works on: the byte, and the input word of one step at its ports
(00_scope.md R10, R13; 43_frame_output.md R121). -/

namespace Sys2Proof

/-- One byte: 8 bits, read as an unsigned number 0 .. 255 wherever a number is meant (R10, R12). -/
abbrev Byte := BitVec 8

/-- What the environment presents to the block at one step (R13, R121, R151).

`edge rst inValid inData` is one rising clock edge with the three input ports as sampled there.
`read rdAddr` is one use of the read port, which no clock edge belongs to; a read taking place at the
same moment as an edge is the `read` standing before that `edge` (20_memory.md R55). -/
inductive Stimulus where
  | edge (rst inValid : Bool) (inData : Byte)
  | read (rdAddr : Nat)
  deriving DecidableEq, Repr

/-- The edge that feeds the byte `b`: `rst = 0`, `in_valid = 1` (R121). The source's `feed(b)`. -/
def Stimulus.feed (b : Byte) : Stimulus := .edge false true b

/-- An edge on which nothing is presented: `rst = 0`, `in_valid = 0` (R116); `in_data` is then ignored. -/
def Stimulus.idle : Stimulus := .edge false false 0

/-- An edge with `rst = 1`; the other inputs are then ignored (R151). -/
def Stimulus.reset : Stimulus := .edge true false 0

/-- The bytes a stimulus feeds to the block: the byte of an edge with `rst = 0` and `in_valid = 1`, and
nothing otherwise (a byte presented together with `rst = 1` is lost, R151). -/
def Stimulus.fed : Stimulus → List Byte
  | .edge false true b => [b]
  | _ => []

/-- The stimuli that a step may be asked to make without moving the block: an idle edge and a read
(R115, R116). -/
def Stimulus.isQuiet : Stimulus → Bool
  | .edge false false _ => true
  | .edge _ _ _ => false
  | .read _ => true

end Sys2Proof
end

