-- ==== Sys2Proof/Config.lean ====
section
/-! DEFINITION. What an instance of the block fixes when it is built (the two named parameters), the
constants of the wire format, and the free values: bytes the spec leaves unspecified. -/

namespace Sys2Proof

/-- The constants of one instance of the block (00_scope.md R7, R8, R27). The spec takes both as arguments;
the model carries them in `State` and no step writes them (log entry 1). -/
structure Params where
  /-- `LEN_LIMIT`: a content-length byte `b` is accepted exactly when `b < LEN_LIMIT` (R7). -/
  lenLimit : Nat
  /-- `BUF_SIZE`: the number of byte cells of the receive buffer (R8). -/
  bufSize : Nat
  deriving DecidableEq, Repr

/-- The constraints on an instance: `1 ≤ LEN_LIMIT ≤ 255` and `BUF_SIZE ≥ LEN_LIMIT + 5` (R7, R8).
Nothing is claimed of an instance that breaks them (93_implementation_defined.md U4). -/
structure Params.Valid (p : Params) : Prop where
  one_le : 1 ≤ p.lenLimit
  le_255 : p.lenLimit ≤ 255
  room : p.lenLimit + 5 ≤ p.bufSize

/-- `IDX_W`, the width of the receive index in bits (R9). -/
def Params.idxWidth (p : Params) : Nat := Nat.clog 2 (p.lenLimit + 5)

/-- `ADDR_W`, the width of the port `rd_addr` in bits (R9). -/
def Params.addrWidth (p : Params) : Nat := Nat.clog 2 p.bufSize

namespace Config

/-- The default instance, `LEN_LIMIT = 122` and `BUF_SIZE = 128` (R7, R8). PRESUMED: the spec marks both
numbers as general knowledge; no rule depends on them (log entry 1). -/
def defaultParams : Params := ⟨122, 128⟩

/-- First header byte, `HDR0` (R5). -/
def hdr0 : Byte := 0x55

/-- Second header byte, `HDR1` (R5). -/
def hdr1 : Byte := 0xAA

/-- `CONTENT_START`, the index of the first content byte of a frame (R6). -/
def contentStart : Nat := 5

/-- FREE VALUE. The byte that buffer cell `a` powers up with; what a cell reads as until a `Feed` step writes
it (10_state.md R31, 93_implementation_defined.md U1; log entry 2). No value of it can be proved. -/
opaque powerUpByte : Nat → Byte

/-- FREE VALUE. The byte the `n`-th out-of-range read returns (43_frame_output.md R115,
93_implementation_defined.md U3; log entry 3). No value of it can be proved. -/
opaque freeByte : Nat → Byte

end Config

end Sys2Proof
end

