-- ==== Sys2Proof/Syntax.lean ====
section
/-! DEFINITION. The operations of the block: one constructor per row of spec/opcode_table.json
(30_encoding.md R67). -/

namespace Sys2Proof

/-- The thirteen operations. A `feed…` operation consumes one fed byte, which is its operand `b`; the two
header hits have no operand because their byte is a constant (R80, R82). -/
inductive Instr where
  /-- `FEED.H0.HIT` (R80): the byte is `0x55`. -/
  | feedH0Hit
  /-- `FEED.H0.MISS` (R81). -/
  | feedH0Miss (b : Byte)
  /-- `FEED.H1.HIT` (R82): the byte is `0xAA`. -/
  | feedH1Hit
  /-- `FEED.H1.MISS` (R83). -/
  | feedH1Miss (b : Byte)
  /-- `FEED.ADDR` (R85). -/
  | feedAddr (b : Byte)
  /-- `FEED.LEN.OK` (R90). -/
  | feedLenOk (b : Byte)
  /-- `FEED.LEN.OVER` (R91). -/
  | feedLenOver (b : Byte)
  /-- `FEED.ACC.STORE` (R103). -/
  | feedAccStore (b : Byte)
  /-- `FEED.ACC.LAST.OK` (R105). -/
  | feedAccLastOk (b : Byte)
  /-- `FEED.ACC.LAST.BAD` (R106). -/
  | feedAccLastBad (b : Byte)
  /-- `RESET` (R150). -/
  | reset
  /-- `READ` (R115) of cell `a`. -/
  | read (a : Nat)
  /-- `IDLE` (R116). -/
  | idle
  deriving DecidableEq, Repr

/-- The operations that consume no byte and leave the candidate alone: `READ` and `IDLE` (R115, R116). -/
def Instr.isQuiet : Instr → Bool
  | .read _ => true
  | .idle => true
  | .feedH0Hit => false
  | .feedH0Miss _ => false
  | .feedH1Hit => false
  | .feedH1Miss _ => false
  | .feedAddr _ => false
  | .feedLenOk _ => false
  | .feedLenOver _ => false
  | .feedAccStore _ => false
  | .feedAccLastOk _ => false
  | .feedAccLastBad _ => false
  | .reset => false

end Sys2Proof
end

