-- ==== Sys2Proof/WellFormed.lean ====
section
/-! DEFINITION. Which terms of `Instr` are operations of a given instance of the block: the conditions that
the rows of 30_encoding.md R67 put on the fed byte alone. -/

namespace Sys2Proof

/-- The condition each row of R67 puts on its operand: a miss is not the header byte it missed, an accepted
length is below `LEN_LIMIT` and a rejected one is not. Every other operand is free (R69, R70); a read
address may exceed the buffer (43_frame_output.md R115 (b)). -/
def WellFormed (p : Params) : Instr → Bool
  | .feedH0Hit => true
  | .feedH0Miss b => b != Config.hdr0
  | .feedH1Hit => true
  | .feedH1Miss b => b != Config.hdr1
  | .feedAddr _ => true
  | .feedLenOk b => decide (b.toNat < p.lenLimit)
  | .feedLenOver b => decide (p.lenLimit ≤ b.toNat)
  | .feedAccStore _ => true
  | .feedAccLastOk _ => true
  | .feedAccLastBad _ => true
  | .reset => true
  | .read _ => true
  | .idle => true

end Sys2Proof
end

