-- ==== Sys2Proof/Decode.lean ====
section
/-! DEFINITION. Operation decode (30_encoding.md R67, R68): how the input word of a step, together with the
receive index, cell 3 of the buffer and the running sum, selects one of the thirteen operations; and the
encoder, which gives back the input word and the condition on the state under which it selects the
operation. Nothing is rejected: every input word selects an operation in every state (R67, R69). -/

namespace Sys2Proof

/-- What the decode of a fed byte looks at beside the byte (R67). -/
structure DecodeContext where
  /-- `LEN_LIMIT` of the instance. -/
  lenLimit : Nat
  /-- `idx` before the step. -/
  idx : Nat
  /-- `buf[3]` before the step. -/
  len : Byte
  /-- `Checksum(buf[0 .. idx−1])` before the step. -/
  sum : Byte
  deriving DecidableEq, Repr

/-- The position of the checksum byte of a frame whose length byte is `len`: `len + CONTENT_START`, on natural
numbers, never wrapped at 8 bits (R6, R9, R64; 42_content_checksum.md R103 (d), R104). -/
def checksumPosition (len : Byte) : Nat := len.toNat + Config.contentStart

/-- The ten rows of R67 for a fed byte, in the order of the index. -/
def decodeFeed (c : DecodeContext) (b : Byte) : Instr :=
  if c.idx = 0 then
    if b = Config.hdr0 then .feedH0Hit else .feedH0Miss b
  else if c.idx = 1 then
    if b = Config.hdr1 then .feedH1Hit else .feedH1Miss b
  else if c.idx = 2 then
    .feedAddr b
  else if c.idx = 3 then
    if b.toNat < c.lenLimit then .feedLenOk b else .feedLenOver b
  else if c.idx = checksumPosition c.len then
    if b = c.sum then .feedAccLastOk b else .feedAccLastBad b
  else
    .feedAccStore b

/-- The operation an input word selects (R67, R121): `rst = 1` is `RESET` whatever the other inputs are
(R151), otherwise `in_valid = 1` feeds `in_data`, otherwise the edge is `IDLE`; a use of the read port is
`READ`. -/
def decode (c : DecodeContext) : Stimulus → Instr
  | .edge true _ _ => .reset
  | .edge false true b => decodeFeed c b
  | .edge false false _ => .idle
  | .read a => .read a

/-- The input word of an operation: for a `FEED` row the edge that feeds its byte, for a `PORT` row its port
condition (R67, R68). Inputs a row ignores are written as 0. -/
def encode : Instr → Stimulus
  | .feedH0Hit => .feed 0x55
  | .feedH0Miss b => .feed b
  | .feedH1Hit => .feed 0xAA
  | .feedH1Miss b => .feed b
  | .feedAddr b => .feed b
  | .feedLenOk b => .feed b
  | .feedLenOver b => .feed b
  | .feedAccStore b => .feed b
  | .feedAccLastOk b => .feed b
  | .feedAccLastBad b => .feed b
  | .reset => .reset
  | .read a => .read a
  | .idle => .idle

/-- The condition each row of R67 puts on the state: the table's column `idx`, and for the completing rows the
comparison with the computed checksum. -/
def rowGuard (c : DecodeContext) : Instr → Bool
  | .feedH0Hit => c.idx == 0
  | .feedH0Miss _ => c.idx == 0
  | .feedH1Hit => c.idx == 1
  | .feedH1Miss _ => c.idx == 1
  | .feedAddr _ => c.idx == 2
  | .feedLenOk _ => c.idx == 3
  | .feedLenOver _ => c.idx == 3
  | .feedAccStore _ => decide (4 ≤ c.idx) && c.idx != c.len.toNat + 5
  | .feedAccLastOk b => decide (4 ≤ c.idx) && c.idx == c.len.toNat + 5 && b == c.sum
  | .feedAccLastBad b => decide (4 ≤ c.idx) && c.idx == c.len.toNat + 5 && b != c.sum
  | .reset => true
  | .read _ => true
  | .idle => true

/-- The receive index at which a byte taken alone, without a state, is read by the opcode table: `0xAA` is the
second header byte, the only other byte a row of the table fixes besides `0x55` (R68). DESIGN CHOICE, log
entry 9. -/
def tableIdx (b : Byte) : Nat := if b = Config.hdr1 then 1 else 0

/-- The state in which `decodeTableWord` reads the byte `b`. DESIGN CHOICE, log entry 9. -/
def tableContext (b : Byte) : DecodeContext :=
  ⟨Config.defaultParams.lenLimit, tableIdx b, 0, 0⟩

/-- The input word that the bits `w` of an opcode-table row stand for: 8 bits are a fed byte (R68); no bits
at all are an edge on which no byte is fed. DESIGN CHOICE, log entry 9. -/
def tableStimulus (nbits w : Nat) : Option Stimulus :=
  if nbits = 8 ∧ w < 256 then some (.feed (BitVec.ofNat 8 w))
  else if nbits = 0 ∧ w = 0 then some .idle
  else none

/-- The operation read from the bits of an opcode-table row. The table's rows fix bits for the two header hits
alone; the other rows are told apart by the state, which these bits do not hold (R68; log entry 9). -/
def decodeTableWord (nbits w : Nat) : Option Instr :=
  (tableStimulus nbits w).map (decode (tableContext (BitVec.ofNat 8 w)))

end Sys2Proof
end

