-- ==== Sys2Proof/Machine/State.lean ====
section
/-! DEFINITION. The state of the block as plain data, the reasons a step can stop, and the state after reset
(10_state.md). -/

namespace Sys2Proof.Machine

/-- The receive buffer as the list of the cells that a step has written, each with the byte it holds, addresses
strictly rising. A cell that is not listed has not been written since power-up and reads as its unspecified
power-up byte (R23, R31; log entry 2). -/
abbrev Memory := List Host.Cell

/-- The state. The architectural state of the block is `idx` and `buf` (R20), with `frameReady`, the registered
output port of the binding (R26, R121). The other fields are the model's own: the constants of the instance,
the byte the read port returned, the counter of free values, and the environment's pending inputs. -/
structure State where
  /-- The constants `LEN_LIMIT` and `BUF_SIZE` of the instance (R27, R33; log entry 1). -/
  params : Params
  /-- `idx`, the receive index: the position the next fed byte belongs at (R21). -/
  idx : Nat
  /-- `buf`, the receive buffer (R23). -/
  buf : Memory
  /-- `frame_ready`: the result of the `Feed` step of the latest edge, false after `IDLE` and `RESET` (R26, R121). -/
  frameReady : Bool
  /-- `rd_data` as the latest `READ` step returned it (R115; log entry 4). -/
  rdData : Byte
  /-- MODEL's own: how many free bytes out-of-range reads have drawn (R115 (b); log entry 3). -/
  draws : Nat
  /-- MODEL's own: the inputs the environment has yet to present, the next one first (R13; log entry 5). -/
  inputs : List Stimulus
  deriving DecidableEq, Repr

/-- The reasons a step can end in a fault. The block itself raises none (60_exceptions.md R130). -/
inductive Fault where
  /-- SAFE. Raised by a storing operation (`FEED.H0.HIT`, `FEED.H1.HIT`, `FEED.ADDR`, `FEED.LEN.OK` and the three
  `FEED.ACC` ones) whose cell does not exist: the address is not below `BUF_SIZE`. It occurs in no state that
  keeps the invariant of R29, so in no run after a reset (R93; log entry 7). -/
  | writeOutsideBuffer
  deriving DecidableEq, Repr

/-- The reasons a step can be refused. -/
inductive Refusal where
  /-- SAFE. An operation that has no meaning in this model yet, by its mnemonic. No operation is refused. -/
  | notModelled (mnemonic : String)
  deriving DecidableEq, Repr

/-- The state right after reset of an instance with the constants `p`: `idx = 0`, `frame_ready = 0`, no cell of
the buffer written (R30 to R32, R152). `rdData` is 0 by DESIGN CHOICE (log entry 4); `draws` and `inputs` are
the model's own fields. -/
def State.resetOf (p : Params) : State where
  params := p
  idx := 0
  buf := []
  frameReady := false
  rdData := 0
  draws := 0
  inputs := []

/-- The state right after reset, of the default instance (R7, R8; log entry 1). -/
def State.reset : State := State.resetOf Config.defaultParams

end Sys2Proof.Machine
end

