-- ==== Sys2Proof/Machine/Ops.lean ====
section
/-! DEFINITION. The named operations over the receive buffer and the registers, and the block's one answer to
malformed input, silent resynchronization (20_memory.md; 60_exceptions.md R138). -/

namespace Sys2Proof.Machine

/-- The byte written at address `a`, if one was. -/
def Memory.lookup : Memory → Nat → Option Byte
  | [], _ => none
  | (k, v) :: m, a => if k = a then some v else Memory.lookup m a

/-- What an unlisted address reads as: the unspecified byte the cell powered up with (R31; log entry 2). -/
def Memory.unlisted (a : Nat) : Byte := Config.powerUpByte a

/-- `buf[a]` of a buffer (R11). -/
def Memory.read (m : Memory) (a : Nat) : Byte := (m.lookup a).getD (Memory.unlisted a)

/-- `buf[a] <- v` (R11): the one listed entry of `a` is replaced, or a new one put in its place in the order. -/
def Memory.write : Memory → Nat → Byte → Memory
  | [], a, v => [(a, v)]
  | (k, w) :: m, a, v =>
    if a < k then (a, v) :: (k, w) :: m
    else if a = k then (a, v) :: m
    else (k, w) :: Memory.write m a v

/-- The canonical form of a buffer: addresses strictly rising, so no address is listed twice. An unlisted address
has no written byte, so no entry can equal what an unlisted address holds (log entry 2). -/
abbrev Memory.wf (m : Memory) : Prop := (m.map Prod.fst).Pairwise (· < ·)

/-- Every listed cell exists in a buffer of `n` cells (R40). -/
abbrev Memory.Within (m : Memory) (n : Nat) : Prop := ∀ c ∈ m, c.1 < n

def State.setIdx (s : State) (i : Nat) : State := { s with idx := i }

def State.setBuf (s : State) (m : Memory) : State := { s with buf := m }

def State.setFrameReady (s : State) (r : Bool) : State := { s with frameReady := r }

def State.setRdData (s : State) (b : Byte) : State := { s with rdData := b }

def State.setDraws (s : State) (n : Nat) : State := { s with draws := n }

def State.setInputs (s : State) (xs : List Stimulus) : State := { s with inputs := xs }

/-- `buf[a]` in a state (R11). -/
def readCell (s : State) (a : Nat) : Byte := s.buf.read a

/-- `buf[0 .. n−1]` in a state (R11). -/
def cells (s : State) (n : Nat) : List Byte := (List.range n).map (readCell s)

/-- The common shape of the storing operations: `buf[a] <- b`, `idx <- i`, and the step's result is `ready`
(R80, R82, R85, R90, R103, R105, R106), all in one step (20_memory.md R54). A cell that does not exist cannot be
written (R40, R93; log entry 7). -/
def takeByte (s : State) (a : Nat) (b : Byte) (i : Nat) (ready : Bool) :
    Host.Outcome State Fault Refusal :=
  if a < s.params.bufSize then
    .next (((s.setBuf (s.buf.write a b)).setIdx i).setFrameReady ready)
  else
    .fault .writeOutsideBuffer

/-- What the block does in place of taking an exception: the candidate is dropped, `idx <- 0`, the result is false,
and nothing is saved, signalled or cleared (60_exceptions.md R138). In place of a return nothing happens: the next
byte is treated by the ordinary rules (R139). -/
def resynchronize (s : State) : State := (s.setIdx 0).setFrameReady false

/-- A byte is passed over: the result is false and the state is as it was (R81). -/
def passOver (s : State) : State := s.setFrameReady false

/-- A free byte, and the state with one more draw made (R115 (b); log entry 3). -/
def drawByte (s : State) : Byte × State := (Config.freeByte s.draws, s.setDraws (s.draws + 1))

/-- The input word the environment presents next; when it presents nothing, an idle edge (R116; log entry 5). -/
def nextStimulus (s : State) : Stimulus := s.inputs.headD .idle

/-- The state once the next input word is taken from the environment's pending inputs. -/
def afterFetch (s : State) : State := s.setInputs s.inputs.tail

/-- The state with the input word of an opcode-table row presented next, and the receive index where the row is
read, as `decodeTableWord` reads it (log entry 9). Bits that stand for no input word leave the state as it is. -/
def placeTableWord (s : State) (nbits w : Nat) : State :=
  match tableStimulus nbits w with
  | none => s
  | some (.edge rst true b) => (s.setIdx (tableIdx b)).setInputs (.edge rst true b :: s.inputs)
  | some x => s.setInputs (x :: s.inputs)

end Sys2Proof.Machine
end

