-- ==== Sys2Proof/Machine/Flags.lean ====
section
/-! DEFINITION. The checksum, from which the one flag `frame_ready` follows (42_content_checksum.md R100), and the
names of the three silent events (60_exceptions.md R131 to R133). -/

namespace Sys2Proof.Machine

/-- The sum of a byte sequence over the natural numbers (R12). -/
def byteSum (bs : List Byte) : Nat := (bs.map BitVec.toNat).sum

/-- `Checksum(s) = Sum(s) mod 256` (R100). -/
def checksum (bs : List Byte) : Byte := BitVec.ofNat 8 (byteSum bs)

/-- The silent events: names only, recorded nowhere in the block (R131 to R133; log entry 10). -/
inductive SilentEvent where
  | eHdr1Miss
  | eLenOver
  | eCksumBad
  deriving DecidableEq, Repr

/-- The silent event an operation is, if it is one. -/
def silentEvent : Instr → Option SilentEvent
  | .feedH1Miss _ => some .eHdr1Miss
  | .feedLenOver _ => some .eLenOver
  | .feedAccLastBad _ => some .eCksumBad
  | .feedH0Hit => none
  | .feedH0Miss _ => none
  | .feedH1Hit => none
  | .feedAddr _ => none
  | .feedLenOk _ => none
  | .feedAccStore _ => none
  | .feedAccLastOk _ => none
  | .reset => none
  | .read _ => none
  | .idle => none

end Sys2Proof.Machine
end

