-- ==== Sys2Proof/Machine/Operands.lean ====
section
/-! DEFINITION. What a step reads from the state to select and to carry out an operation (10_state.md R22, R24;
30_encoding.md R67). -/

namespace Sys2Proof.Machine

/-- The five states as names for ranges of `idx` (R22). -/
inductive Position where
  | awaitHeader0
  | awaitHeader1
  | awaitAddress
  | awaitLength
  | accumulateContent
  deriving DecidableEq, Repr

/-- The state name of a receive index (R22). -/
def positionOf : Nat → Position
  | 0 => .awaitHeader0
  | 1 => .awaitHeader1
  | 2 => .awaitAddress
  | 3 => .awaitLength
  | _ + 4 => .accumulateContent

/-- The content length of the candidate, `buf[3]` (R42). -/
def contentLength (s : State) : Byte := readCell s 3

/-- The bytes of the candidate taken so far, `buf[0 .. idx−1]` (R21, R104). -/
def candidate (s : State) : List Byte := cells s s.idx

/-- `remaining`, in `AccumulateContent`: the bytes the block still takes before completion, `buf[3] + 6 − idx`
(R24). -/
def remaining (s : State) : Nat := (contentLength s).toNat + 6 - s.idx

/-- What the decode looks at in a state (R67). -/
def decodeContext (s : State) : DecodeContext :=
  ⟨s.params.lenLimit, s.idx, contentLength s, checksum (candidate s)⟩

/-- The operation an input word selects in a state (R67). -/
def operationOf (s : State) (x : Stimulus) : Instr := decode (decodeContext s) x

end Sys2Proof.Machine
end

