-- ==== Sys2Proof/Machine/Content.lean ====
section
/-! DEFINITION. The operations of `AccumulateContent` (42_content_checksum.md). -/

namespace Sys2Proof.Machine

/-- `FEED.ACC.STORE` (R103). -/
def execFeedAccStore (b : Byte) (s : State) : Host.Outcome State Fault Refusal :=
  takeByte s s.idx b (s.idx + 1) false

/-- `FEED.ACC.LAST.OK` (R105): the one operation whose result is true. -/
def execFeedAccLastOk (b : Byte) (s : State) : Host.Outcome State Fault Refusal :=
  takeByte s s.idx b 0 true

/-- `FEED.ACC.LAST.BAD` (R106): silent event `E_CKSUM_BAD`; the byte is stored all the same. -/
def execFeedAccLastBad (b : Byte) (s : State) : Host.Outcome State Fault Refusal :=
  takeByte s s.idx b 0 false

end Sys2Proof.Machine
end

