-- ==== Sys2Proof/Machine/Header.lean ====
section
/-! DEFINITION. The operations of `AwaitHeader0`, `AwaitHeader1` and `AwaitAddress` (40_header_detection.md). Each
meaning is the pseudocode of its rule; the row's condition is the decode's business (log entry 8). -/

namespace Sys2Proof.Machine

/-- `FEED.H0.HIT` (R80). -/
def execFeedH0Hit (s : State) : Host.Outcome State Fault Refusal :=
  takeByte s 0 0x55 1 false

/-- `FEED.H0.MISS` (R81): the byte is ignored. -/
def execFeedH0Miss (_b : Byte) (s : State) : Host.Outcome State Fault Refusal :=
  .next (passOver s)

/-- `FEED.H1.HIT` (R82). -/
def execFeedH1Hit (s : State) : Host.Outcome State Fault Refusal :=
  takeByte s 1 0xAA 2 false

/-- `FEED.H1.MISS` (R83): silent event `E_HDR1_MISS`; the byte is consumed and not looked at again (R84). -/
def execFeedH1Miss (_b : Byte) (s : State) : Host.Outcome State Fault Refusal :=
  .next (resynchronize s)

/-- `FEED.ADDR` (R85): any byte is stored and the candidate goes on. -/
def execFeedAddr (b : Byte) (s : State) : Host.Outcome State Fault Refusal :=
  takeByte s 2 b 3 false

end Sys2Proof.Machine
end

