-- ==== Sys2Proof/Machine/Length.lean ====
section
/-! DEFINITION. The operations of `AwaitLength` (41_length_accumulation.md). -/

namespace Sys2Proof.Machine

/-- `FEED.LEN.OK` (R90). -/
def execFeedLenOk (b : Byte) (s : State) : Host.Outcome State Fault Refusal :=
  takeByte s 3 b 4 false

/-- `FEED.LEN.OVER` (R91): silent event `E_LEN_OVER`; the byte is not stored. -/
def execFeedLenOver (_b : Byte) (s : State) : Host.Outcome State Fault Refusal :=
  .next (resynchronize s)

end Sys2Proof.Machine
end

