-- ==== Sys2Proof/Machine/Port.lean ====
section
/-! DEFINITION. The operations selected by ports: `RESET` (70_reset_and_hazards.md), `READ` and `IDLE`
(43_frame_output.md). -/

namespace Sys2Proof.Machine

/-- `RESET` (R150): `idx <- 0`, the output register becomes 0, the buffer is not touched. -/
def execReset (s : State) : Host.Outcome State Fault Refusal :=
  .next ((s.setIdx 0).setFrameReady false)

/-- `READ` (R115): the byte of the cell, or for an address with no cell an unspecified byte; `idx`, `buf` and the
output register `frame_ready` stay as they are (log entry 6). It asks for none of the reader's duties (R122), which are
obligations of the environment: `ReaderKeepsDuties` in Safety.lean, log entry 23. -/
def execRead (a : Nat) (s : State) : Host.Outcome State Fault Refusal :=
  if a < s.params.bufSize then
    .next (s.setRdData (readCell s a))
  else
    .next ((drawByte s).2.setRdData (drawByte s).1)

/-- `IDLE` (R116): the output register becomes 0 and nothing else changes. -/
def execIdle (s : State) : Host.Outcome State Fault Refusal :=
  .next (s.setFrameReady false)

end Sys2Proof.Machine
end

