-- ==== Sys2Proof/Machine/Dispatch.lean ====
section
/-! DEFINITION. One arm per operation: the meaning of each row of the opcode table. -/

namespace Sys2Proof.Machine

def exec (i : Instr) (s : State) : Host.Outcome State Fault Refusal :=
  match i with
  | .feedH0Hit => Sys2Proof.Machine.execFeedH0Hit s
  | .feedH0Miss b => Sys2Proof.Machine.execFeedH0Miss b s
  | .feedH1Hit => Sys2Proof.Machine.execFeedH1Hit s
  | .feedH1Miss b => Sys2Proof.Machine.execFeedH1Miss b s
  | .feedAddr b => Sys2Proof.Machine.execFeedAddr b s
  | .feedLenOk b => Sys2Proof.Machine.execFeedLenOk b s
  | .feedLenOver b => Sys2Proof.Machine.execFeedLenOver b s
  | .feedAccStore b => Sys2Proof.Machine.execFeedAccStore b s
  | .feedAccLastOk b => Sys2Proof.Machine.execFeedAccLastOk b s
  | .feedAccLastBad b => Sys2Proof.Machine.execFeedAccLastBad b s
  | .reset => Sys2Proof.Machine.execReset s
  | .read a => Sys2Proof.Machine.execRead a s
  | .idle => Sys2Proof.Machine.execIdle s

end Sys2Proof.Machine
end

