-- ==== Sys2Proof/Machine/Step.lean ====
section
/-! DEFINITION. One step: the next input word is taken, selects an operation in the state it is presented in, and
the operation is carried out (00_scope.md R13; 40_header_detection.md R84). -/

namespace Sys2Proof.Machine

/-- One step of the block (R13, R84). -/
def step (s : State) : Host.Outcome State Fault Refusal :=
  exec (operationOf s (nextStimulus s)) (afterFetch s)

/-- The state with the input word of an opcode-table row presented next (log entry 9). -/
def State.withFetchWord (s : State) (nbits w : Nat) : State := placeTableWord s nbits w

end Sys2Proof.Machine
end

