-- ==== Sys2Proof/Safety.lean ====
section
/-! DEFINITION. What claims are stated in: the invariants of the block, what an operation leaves unchanged, runs
over a stream of inputs, and well-formed frames. -/

namespace Sys2Proof.Machine

/-- The invariant of the block: the instance keeps its constraints (00_scope.md R7, R8), the buffer is in its
canonical form and lists only cells that exist, Inv-A and Inv-B of 10_state.md R29, and every cell of the
candidate in progress has been written (what R31 rests on). -/
structure State.Inv (s : State) : Prop where
  params : s.params.Valid
  bufWf : s.buf.wf
  bufWithin : s.buf.Within s.params.bufSize
  /-- Inv-A. -/
  bounds : s.idx ≤ 3 ∨
    ((contentLength s).toNat < s.params.lenLimit ∧ 4 ≤ s.idx ∧ s.idx ≤ (contentLength s).toNat + 5)
  /-- Inv-B, first header byte. -/
  header0 : 1 ≤ s.idx → readCell s 0 = 0x55
  /-- Inv-B, second header byte. -/
  header1 : 2 ≤ s.idx → readCell s 1 = 0xAA
  written : ∀ a < s.idx, (s.buf.lookup a).isSome = true

/-- What holds while the output register `frame_ready` is true: no candidate is in progress and the buffer holds a
well-formed frame of an accepted length (43_frame_output.md R117 (a) to (d)), all of it written cells. -/
structure State.ReadyInv (s : State) : Prop where
  idle : s.frameReady = true → s.idx = 0
  header0 : s.frameReady = true → readCell s 0 = 0x55
  header1 : s.frameReady = true → readCell s 1 = 0xAA
  length : s.frameReady = true → (contentLength s).toNat < s.params.lenLimit
  sum : s.frameReady = true → readCell s ((contentLength s).toNat + 5) =
    checksum (cells s ((contentLength s).toNat + 5))
  written : s.frameReady = true → ∀ a < (contentLength s).toNat + 6, (s.buf.lookup a).isSome = true

/-- The table of R67 for a fed byte `b`, row by row: which operation a row names, and the condition of its row on the
state and on the byte. The three `PORT` operations are selected by no fed byte. -/
def RowApplies (s : State) (b : Byte) : Instr → Prop
  | .feedH0Hit => s.idx = 0 ∧ b = 0x55
  | .feedH0Miss x => x = b ∧ s.idx = 0 ∧ b ≠ 0x55
  | .feedH1Hit => s.idx = 1 ∧ b = 0xAA
  | .feedH1Miss x => x = b ∧ s.idx = 1 ∧ b ≠ 0xAA
  | .feedAddr x => x = b ∧ s.idx = 2
  | .feedLenOk x => x = b ∧ s.idx = 3 ∧ b.toNat < s.params.lenLimit
  | .feedLenOver x => x = b ∧ s.idx = 3 ∧ b.toNat ≥ s.params.lenLimit
  | .feedAccStore x => x = b ∧ s.idx ≥ 4 ∧ s.idx ≠ (readCell s 3).toNat + 5
  | .feedAccLastOk x =>
    x = b ∧ s.idx ≥ 4 ∧ s.idx = (readCell s 3).toNat + 5 ∧ b = checksum (cells s s.idx)
  | .feedAccLastBad x =>
    x = b ∧ s.idx ≥ 4 ∧ s.idx = (readCell s 3).toNat + 5 ∧ b ≠ checksum (cells s s.idx)
  | .reset => False
  | .read _ => False
  | .idle => False

/-- Inv-C of R29 for a history `h` of fed bytes, the oldest first: the candidate's bytes are the last `idx` bytes
fed, in order. -/
def Tracks (h : List Byte) (s : State) : Prop :=
  s.idx ≤ h.length ∧ candidate s = h.drop (h.length - s.idx)

/-- What no operation but a `READ` changes beside `idx`, `buf` and `frame_ready`. -/
structure SameElsewhere (s t : State) : Prop where
  params : t.params = s.params
  rdData : t.rdData = s.rdData
  draws : t.draws = s.draws
  inputs : t.inputs = s.inputs

/-- Every cell reads as before. -/
def SameCells (s t : State) : Prop := ∀ a, readCell t a = readCell s a

/-- Every cell but `k` reads as before. -/
def SameCellsBut (k : Nat) (s t : State) : Prop := ∀ a, a ≠ k → readCell t a = readCell s a

/-- Two states that agree on everything the rest of a candidate can depend on (R31): the instance, the index, the
result of the last edge, and the cells the candidate has written. -/
structure SameCandidate (s t : State) : Prop where
  params : s.params = t.params
  idx : s.idx = t.idx
  frameReady : s.frameReady = t.frameReady
  cells : ∀ a < s.idx, readCell s a = readCell t a

/-- One step as an observer sees it: the operation carried out and `frame_ready` after it. -/
structure Event where
  op : Instr
  ready : Bool
  deriving DecidableEq, Repr

/-- The operations and results of a stream of inputs, and the state after it; none if a step does not give a next
state. Each input is presented alone, so the pending inputs of the state given play no part. -/
def runInputs (s : State) : List Stimulus → Option (List Event × State)
  | [] => some ([], s)
  | x :: xs =>
    match step (s.setInputs [x]) with
    | .next t => (runInputs t xs).map fun r => (⟨operationOf s x, t.frameReady⟩ :: r.1, r.2)
    | .fault _ => none
    | .refused _ => none

/-- The same for a stream of fed bytes. -/
def feedBytes (s : State) (bs : List Byte) : Option (List Event × State) :=
  runInputs s (bs.map Stimulus.feed)

/-! ### The duties of the reader (43_frame_output.md R122)

The block enforces none of them: they are obligations of the environment, written as predicates over a stream of
inputs, and no step looks at them (log entry 23). What the reader knows is the frame it may still read, if any, which
it learns from the result of a `Feed` step alone. -/

/-- The frame in the buffer, `buf[0 .. N+5]` with `N = buf[3]` (R119). -/
def frameInBuffer (s : State) : List Byte := cells s ((contentLength s).toNat + 6)

/-- The frame the reader may read after an operation that left the state `t`, by the exact limit of duty (b): a frame is
taken up when a step returned true, which is duty (a), and let go at the first `FEED.ADDR` (R118). The operations that
store above cell 2 come after a `FEED.ADDR` only; they let go of it too. -/
def heldUntilAddress (F : Option (List Byte)) (op : Instr) (t : State) : Option (List Byte) :=
  match op with
  | .feedAccLastOk _ => some (frameInBuffer t)
  | .feedAddr _ => none
  | .feedLenOk _ => none
  | .feedAccStore _ => none
  | .feedAccLastBad _ => none
  | .feedH0Hit => F
  | .feedH0Miss _ => F
  | .feedH1Hit => F
  | .feedH1Miss _ => F
  | .feedLenOver _ => F
  | .reset => F
  | .read _ => F
  | .idle => F

/-- The same by the simple rule of duty (b): the frame is let go at the next `Feed` step, whatever it is. `RESET` makes a
completed frame neither valid nor invalid (70_reset_and_hazards.md R150 (b)). -/
def heldUntilFeed (F : Option (List Byte)) (op : Instr) (t : State) : Option (List Byte) :=
  match op with
  | .feedAccLastOk _ => some (frameInBuffer t)
  | .feedAddr _ => none
  | .feedLenOk _ => none
  | .feedAccStore _ => none
  | .feedAccLastBad _ => none
  | .feedH0Hit => none
  | .feedH0Miss _ => none
  | .feedH1Hit => none
  | .feedH1Miss _ => none
  | .feedLenOver _ => none
  | .reset => F
  | .read _ => F
  | .idle => F

/-- What the reader may ask at one step: a `READ` only while it holds a frame (duties (a) and (b)), and only of a cell of
that frame, `a ≤ N + 5` with `N = buf[3]` (duty (c)). -/
def MayPresent (F : Option (List Byte)) (s : State) (x : Stimulus) : Prop :=
  ∀ a, x = .read a → F.isSome = true ∧ a ≤ (contentLength s).toNat + 5

/-- The reader's obligations (a) to (c) over a whole stream of inputs, under a rule `held` for how long a frame may be
read. Duty (d), to look at the command and address bytes, concerns what the reader does with a byte it has read;
duty (e), never to write the buffer, needs no predicate, since no input but a fed byte writes it. -/
def ReaderKeepsDuties (held : Option (List Byte) → Instr → State → Option (List Byte)) (F : Option (List Byte))
    (s : State) : List Stimulus → Prop
  | [] => True
  | x :: xs =>
    MayPresent F s x ∧
    ∀ t, step (s.setInputs [x]) = .next t → ReaderKeepsDuties held (held F (operationOf s x) t) t xs

/-- The frame the reader may read after a stream of inputs. -/
def frameAfter (held : Option (List Byte) → Instr → State → Option (List Byte)) (F : Option (List Byte))
    (s : State) : List Stimulus → Option (List Byte)
  | [] => F
  | x :: xs =>
    match step (s.setInputs [x]) with
    | .next t => frameAfter held (held F (operationOf s x) t) t xs
    | .fault _ => none
    | .refused _ => none

/-- A well-formed frame (00_scope.md R14): a byte sequence `F` of length `n ≥ 6` with `F[0] = 0x55`, `F[1] = 0xAA`,
`F[3] = n − 6` and `F[n−1] = Checksum(F[0 .. n−2])`. The address is not constrained. -/
structure WellFormedFrame (F : List Byte) : Prop where
  long : 6 ≤ F.length
  header0 : F[0]? = some 0x55
  header1 : F[1]? = some 0xAA
  length : F[3]?.map BitVec.toNat = some (F.length - 6)
  sum : F[F.length - 1]? = some (checksum (F.take (F.length - 1)))

/-- What is true of the frame a dutiful reader holds: it is well formed and of an accepted length, and the buffer holds it
byte for byte, with no candidate past its header (R117, R118). -/
def FrameHeld (F : Option (List Byte)) (s : State) : Prop :=
  ∀ f, F = some f → WellFormedFrame f ∧ f.length < s.params.lenLimit + 6 ∧ s.idx ≤ 2 ∧ f = frameInBuffer s

/-- The pseudo-item `FRAME(addr, cmd, content)` (30_encoding.md R74): the frame with that address, command and
content. -/
def frameOf (addr cmd : Byte) (content : List Byte) : List Byte :=
  let body := [0x55, 0xAA, addr, BitVec.ofNat 8 content.length, cmd] ++ content
  body ++ [checksum body]

/-- The operations and results of feeding a frame-shaped byte sequence `F`, when its length byte is accepted: two
header hits, the address, the length, a store for every byte up to the last, and the operation `last` for the
last (42_content_checksum.md R107). -/
def frameEvents (F : List Byte) (last : Byte → Event) : List Event :=
  [⟨.feedH0Hit, false⟩, ⟨.feedH1Hit, false⟩, ⟨.feedAddr (F.getD 2 0), false⟩, ⟨.feedLenOk (F.getD 3 0), false⟩]
    ++ ((F.drop 4).dropLast.map fun b => ⟨.feedAccStore b, false⟩) ++ [last (F.getLastD 0)]

/-- A byte sequence with bit `k` of its byte at position `p` flipped (R108). -/
def flipBit (F : List Byte) (p k : Nat) : List Byte := F.modify p fun b => b ^^^ (1#8 <<< k)

/-- The running accumulator an implementation may keep (R102; 10_state.md R28 (a)): set at a first header hit, and
increased by the byte of every later storing operation but a completing one. -/
def accNext (acc : Byte) : Instr → Byte
  | .feedH0Hit => 0x55
  | .feedH1Hit => acc + 0xAA
  | .feedAddr b => acc + b
  | .feedLenOk b => acc + b
  | .feedAccStore b => acc + b
  | .feedH0Miss _ => acc
  | .feedH1Miss _ => acc
  | .feedLenOver _ => acc
  | .feedAccLastOk _ => acc
  | .feedAccLastBad _ => acc
  | .reset => acc
  | .read _ => acc
  | .idle => acc

/-- The accumulator's invariant (R28 (a)): with a candidate in progress it is the checksum of the bytes taken. -/
def AccHolds (acc : Byte) (s : State) : Prop := 1 ≤ s.idx → acc = checksum (candidate s)

end Sys2Proof.Machine
end

