-- ==== Sys2Proof/Certificates/Slice0/Obligations.lean ====
section
/-! DEFINITION. The statements about the model. The numbers in the docstrings are those of OBLIGATIONS.json. Where a
docstring says "the spec's own decision D<n>", the sentence it rests on is a decision of 92_eei_decisions.md and not
one of the source's. -/

open Sys2Proof Sys2Proof.Machine

/-! ### Decode and encode -/

/-- O1. 30_encoding.md R67: a fed byte selects an operation exactly when that operation's row of the table applies to
the state and the byte; in every state and for every byte exactly one row applies; and the three further operations
are selected by the ports and by no fed byte (their rows are false in `RowApplies`). That a length byte equal to
`LEN_LIMIT` is rejected is the spec's own decision D4 (log entry 13). -/
def Obligations.FedByteSelectsExactlyOneRow : Prop :=
  ∀ (s : State) (b : Byte),
    (∀ i : Instr, operationOf s (.feed b) = i ↔ RowApplies s b i) ∧ (∃! i : Instr, RowApplies s b i) ∧
    operationOf s .reset = .reset ∧ operationOf s .idle = .idle ∧ ∀ a, operationOf s (.read a) = .read a

/-- O2. The port binding: `rst = 1` selects `RESET` whatever the other inputs are, `in_valid = 0` selects `IDLE` whatever
`in_data` is, and a use of the read port selects `READ`. The spec's own decisions D7 and D9. -/
def Obligations.PortsSelectResetIdleRead : Prop :=
  ∀ (s : State) (inValid : Bool) (inData : Byte) (rdAddr : Nat),
    operationOf s (.edge true inValid inData) = .reset ∧
    operationOf s (.edge false false inData) = .idle ∧
    operationOf s (.edge false true inData) = operationOf s (.feed inData) ∧
    operationOf s (.read rdAddr) = .read rdAddr

/-- O3. Decoding the encoded input word of a well-formed operation, in any context that meets the condition of the
operation's row, gives the operation back with its operand. The length rows' condition is the spec's own decision D4, the
port rows' its decisions D7 and D9 (log entries 13, 15, 14). -/
def Obligations.DecodeAfterEncodeGivesOperationBack : Prop :=
  ∀ (p : Params) (idx : Nat) (len sum : Byte) (i : Instr),
    WellFormed p i = true → rowGuard ⟨p.lenLimit, idx, len, sum⟩ i = true →
      decode ⟨p.lenLimit, idx, len, sum⟩ (encode i) = i

/-- O4. The other direction: whatever the decoder reads is a well-formed operation whose row's condition holds, and for a
fed byte the operation's encoding is that byte again, so that no bit of it is dropped. The length rows' condition is
the spec's own decision D4, the port rows' its decisions D7 and D9 (log entries 13, 15, 14). -/
def Obligations.DecodedOperationIsWellFormed : Prop :=
  ∀ (p : Params) (idx : Nat) (len sum : Byte) (x : Stimulus) (b : Byte),
    WellFormed p (decode ⟨p.lenLimit, idx, len, sum⟩ x) = true ∧
    rowGuard ⟨p.lenLimit, idx, len, sum⟩ (decode ⟨p.lenLimit, idx, len, sum⟩ x) = true ∧
    encode (decode ⟨p.lenLimit, idx, len, sum⟩ (.feed b)) = .feed b

/-- O5. Words written out from the table: the two header bytes bit by bit in the two header states, and the largest
instance's completing byte, whose position 259 does not fit in 8 bits. That `0x7A`, equal to the `LEN_LIMIT` 122, is
`FEED.LEN.OVER` is the spec's own decision D4 (log entry 13); how `decodeTableWord` reads the bits of a table row, which
hold no state, in the last two clauses is the model's choice (log entry 9). -/
def Obligations.WrittenOutWordsDecode : Prop :=
  decode ⟨122, 0, 0, 0⟩ (.edge false true 0b01010101#8) = .feedH0Hit ∧
  decode ⟨122, 1, 0, 0⟩ (.edge false true 0b10101010#8) = .feedH1Hit ∧
  decode ⟨122, 1, 0, 0⟩ (.edge false true 0b01010101#8) = .feedH1Miss 0x55 ∧
  decode ⟨122, 3, 0, 0⟩ (.edge false true 0x79#8) = .feedLenOk 0x79 ∧
  decode ⟨122, 3, 0, 0⟩ (.edge false true 0x7A#8) = .feedLenOver 0x7A ∧
  decode ⟨255, 259, 0xFE, 0x44⟩ (.edge false true 0x44#8) = .feedAccLastOk 0x44 ∧
  decodeTableWord 8 0x55 = some .feedH0Hit ∧
  decodeTableWord 8 0xAA = some .feedH1Hit

/-- O6. A step takes the next input word and carries out the operation it selects in the state before the step; with no
input pending the step is `IDLE` (log entry 5). -/
def Obligations.StepRunsSelectedOperation : Prop :=
  ∀ s : State,
    (s.inputs = [] → step s = exec .idle s) ∧
    ∀ (x : Stimulus) (rest : List Stimulus), s.inputs = x :: rest →
      step s = exec (operationOf s x) { s with inputs := rest }

/-! ### Each operation: when it is selected, its effect, its frame, and that it completes -/

/-- O7. `FEED.H0.HIT`. That the header byte is stored is the spec's own decision D6. -/
def Obligations.FeedH0HitStoresByteAndAdvances : Prop :=
  ∀ s : State, s.idx = 0 → 0 < s.params.bufSize →
    operationOf s (.feed 0x55) = .feedH0Hit ∧
    ∃ t, exec .feedH0Hit s = .next t ∧ t.idx = 1 ∧ t.frameReady = false ∧
      readCell t 0 = 0x55 ∧ SameCellsBut 0 s t ∧ SameElsewhere s t

/-- O8. 40_header_detection.md R81. -/
def Obligations.FeedH0MissChangesNothing : Prop :=
  ∀ (s : State) (b : Byte), s.idx = 0 → b ≠ 0x55 →
    operationOf s (.feed b) = .feedH0Miss b ∧
    ∃ t, exec (.feedH0Miss b) s = .next t ∧ t.idx = 0 ∧ t.frameReady = false ∧
      t.buf = s.buf ∧ SameCells s t ∧ SameElsewhere s t

/-- O9. `FEED.H1.HIT`. That the header byte is stored is the spec's own decision D6. -/
def Obligations.FeedH1HitStoresByteAndAdvances : Prop :=
  ∀ s : State, s.idx = 1 → 1 < s.params.bufSize →
    operationOf s (.feed 0xAA) = .feedH1Hit ∧
    ∃ t, exec .feedH1Hit s = .next t ∧ t.idx = 2 ∧ t.frameReady = false ∧
      readCell t 1 = 0xAA ∧ SameCellsBut 1 s t ∧ SameElsewhere s t

/-- O10. 40_header_detection.md R83; `b = 0x55` is a miss like any other. -/
def Obligations.FeedH1MissResynchronizes : Prop :=
  ∀ (s : State) (b : Byte), s.idx = 1 → b ≠ 0xAA →
    operationOf s (.feed b) = .feedH1Miss b ∧
    ∃ t, exec (.feedH1Miss b) s = .next t ∧ t.idx = 0 ∧ t.frameReady = false ∧
      t.buf = s.buf ∧ SameCells s t ∧ SameElsewhere s t

/-- O11. 40_header_detection.md R85: every byte is accepted as the address. -/
def Obligations.FeedAddrStoresAnyByte : Prop :=
  ∀ (s : State) (b : Byte), s.idx = 2 → 2 < s.params.bufSize →
    operationOf s (.feed b) = .feedAddr b ∧
    ∃ t, exec (.feedAddr b) s = .next t ∧ t.idx = 3 ∧ t.frameReady = false ∧
      readCell t 2 = b ∧ SameCellsBut 2 s t ∧ SameElsewhere s t

/-- O12. `FEED.LEN.OK` (41_length_accumulation.md R90): the length is stored and `b + 2` bytes remain to be taken.
That exactly `b < LEN_LIMIT` is accepted is the spec's own decision D4 (log entry 13). -/
def Obligations.FeedLenOkStoresLength : Prop :=
  ∀ (s : State) (b : Byte), s.idx = 3 → b.toNat < s.params.lenLimit → 3 < s.params.bufSize →
    operationOf s (.feed b) = .feedLenOk b ∧
    ∃ t, exec (.feedLenOk b) s = .next t ∧ t.idx = 4 ∧ t.frameReady = false ∧
      readCell t 3 = b ∧ remaining t = b.toNat + 2 ∧ SameCellsBut 3 s t ∧ SameElsewhere s t

/-- O13. 41_length_accumulation.md R91: a length `≥ LEN_LIMIT` is not stored. That `LEN_LIMIT` itself is rejected is the
spec's own decision D4 (log entry 13). -/
def Obligations.FeedLenOverResynchronizes : Prop :=
  ∀ (s : State) (b : Byte), s.idx = 3 → s.params.lenLimit ≤ b.toNat →
    operationOf s (.feed b) = .feedLenOver b ∧
    ∃ t, exec (.feedLenOver b) s = .next t ∧ t.idx = 0 ∧ t.frameReady = false ∧
      t.buf = s.buf ∧ SameCells s t ∧ SameElsewhere s t

/-- O14. 42_content_checksum.md R103: every byte of a candidate but its last is stored at `idx`; when the candidate's
length is an accepted one, the index stays at most `buf[3] + 5`. -/
def Obligations.FeedAccStoreStoresPositionally : Prop :=
  ∀ (s : State) (b : Byte), 4 ≤ s.idx → s.idx ≠ (readCell s 3).toNat + 5 → s.idx < s.params.bufSize →
    operationOf s (.feed b) = .feedAccStore b ∧
    ∃ t, exec (.feedAccStore b) s = .next t ∧ t.idx = s.idx + 1 ∧ t.frameReady = false ∧
      readCell t s.idx = b ∧ SameCellsBut s.idx s t ∧ SameElsewhere s t ∧
      (s.idx ≤ (readCell s 3).toNat + 5 → t.idx ≤ (readCell t 3).toNat + 5)

/-- O15. 42_content_checksum.md R105: a matching checksum byte completes the frame with the result true. -/
def Obligations.FeedAccLastOkReportsFrame : Prop :=
  ∀ (s : State) (b : Byte), 4 ≤ s.idx → s.idx = (readCell s 3).toNat + 5 → b = checksum (cells s s.idx) →
    s.idx < s.params.bufSize →
    operationOf s (.feed b) = .feedAccLastOk b ∧
    ∃ t, exec (.feedAccLastOk b) s = .next t ∧ t.idx = 0 ∧ t.frameReady = true ∧
      readCell t s.idx = b ∧ SameCellsBut s.idx s t ∧ SameElsewhere s t

/-- O16. `FEED.ACC.LAST.BAD`: a checksum byte that does not match ends the candidate with the result false. That the byte
is stored all the same is the spec's own decision D6. -/
def Obligations.FeedAccLastBadDropsFrame : Prop :=
  ∀ (s : State) (b : Byte), 4 ≤ s.idx → s.idx = (readCell s 3).toNat + 5 → b ≠ checksum (cells s s.idx) →
    s.idx < s.params.bufSize →
    operationOf s (.feed b) = .feedAccLastBad b ∧
    ∃ t, exec (.feedAccLastBad b) s = .next t ∧ t.idx = 0 ∧ t.frameReady = false ∧
      readCell t s.idx = b ∧ SameCellsBut s.idx s t ∧ SameElsewhere s t

/-- O17. `RESET` in any state, a candidate in progress included: the index and the output register become 0 and the
buffer is not touched. The spec's own decision D9. -/
def Obligations.ResetZeroesIndexOnly : Prop :=
  ∀ s : State, ∃ t, exec .reset s = .next t ∧ t.idx = 0 ∧ t.frameReady = false ∧
    t.buf = s.buf ∧ SameCells s t ∧ SameElsewhere s t

/-- O18. `READ` in any state: it returns the cell's byte, or for an address with no cell the next free byte, whatever
that is, and changes neither `idx` nor `buf` nor `frame_ready`. The spec's own decisions D7 and D15; the field
`rdData` and the counter `draws` are log entries 3 and 4. -/
def Obligations.ReadReturnsCellAndChangesNothing : Prop :=
  ∀ (s : State) (a : Nat), ∃ t, exec (.read a) s = .next t ∧
    t.idx = s.idx ∧ t.buf = s.buf ∧ SameCells s t ∧ t.frameReady = s.frameReady ∧
    t.params = s.params ∧ t.inputs = s.inputs ∧
    (a < s.params.bufSize → t.rdData = readCell s a ∧ t.draws = s.draws) ∧
    (s.params.bufSize ≤ a → t.rdData = Config.freeByte s.draws ∧ t.draws = s.draws + 1)

/-- O19. `IDLE` in any state: the output register becomes 0 and nothing else changes. The spec's own decision D7. -/
def Obligations.IdleClearsReadyOnly : Prop :=
  ∀ s : State, ∃ t, exec .idle s = .next t ∧ t.idx = s.idx ∧ t.frameReady = false ∧
    t.buf = s.buf ∧ SameCells s t ∧ SameElsewhere s t

/-- O20. Reading has no side effect on the buffer and may be repeated: the same cell read twice gives the same byte
(20_memory.md R48). The read port is the spec's own decision D7 (log entry 15). -/
def Obligations.RepeatedReadReturnsSameByte : Prop :=
  ∀ (s t u : State) (a : Nat), a < s.params.bufSize →
    exec (.read a) s = .next t → exec (.read a) t = .next u →
      u.rdData = t.rdData ∧ u.buf = s.buf ∧ u.idx = s.idx

/-- O21. 60_exceptions.md R131, R132, R133: the cause of each of the three silent events, and its whole effect in the step
that consumed the byte. That a failing checksum byte is stored all the same is the spec's own decision D6 (log entry
12), that a length equal to `LEN_LIMIT` is rejected is its decision D4 (log entry 13), and the three names are its
decision D13 (log entry 10). -/
def Obligations.SilentEventCausesAndEffects : Prop :=
  ∀ (s : State) (b : Byte), s.Inv →
    (silentEvent (operationOf s (.feed b)) = some .eHdr1Miss ↔ s.idx = 1 ∧ b ≠ 0xAA) ∧
    (silentEvent (operationOf s (.feed b)) = some .eLenOver ↔ s.idx = 3 ∧ s.params.lenLimit ≤ b.toNat) ∧
    (silentEvent (operationOf s (.feed b)) = some .eCksumBad ↔
      4 ≤ s.idx ∧ s.idx = (readCell s 3).toNat + 5 ∧ b ≠ checksum (cells s ((readCell s 3).toNat + 5))) ∧
    ∀ e, silentEvent (operationOf s (.feed b)) = some e →
      ∃ t, step (s.setInputs [.feed b]) = .next t ∧ t.idx = 0 ∧ t.frameReady = false ∧
        t.params = s.params ∧ t.rdData = s.rdData ∧ t.draws = s.draws ∧ t.inputs = [] ∧
        (e ≠ .eCksumBad → SameCells s t) ∧
        (e = .eCksumBad → readCell t s.idx = b ∧ SameCellsBut s.idx s t)

/-- O22. A storing operation whose cell does not exist stops with the fault of that name. The model's own choice, log entry
7: the spec excludes the case by a hypothesis on the parameters. -/
def Obligations.StoreOutsideBufferFaults : Prop :=
  ∀ (s : State) (b : Byte),
    (s.params.bufSize ≤ 0 → exec .feedH0Hit s = .fault .writeOutsideBuffer) ∧
    (s.params.bufSize ≤ 1 → exec .feedH1Hit s = .fault .writeOutsideBuffer) ∧
    (s.params.bufSize ≤ 2 → exec (.feedAddr b) s = .fault .writeOutsideBuffer) ∧
    (s.params.bufSize ≤ 3 → exec (.feedLenOk b) s = .fault .writeOutsideBuffer) ∧
    (s.params.bufSize ≤ s.idx →
      exec (.feedAccStore b) s = .fault .writeOutsideBuffer ∧
      exec (.feedAccLastOk b) s = .fault .writeOutsideBuffer ∧
      exec (.feedAccLastBad b) s = .fault .writeOutsideBuffer)

/-! ### Whole-machine rules -/

/-- O23. 60_exceptions.md R130: in every state that keeps the invariant, every step completes, whatever is presented. -/
def Obligations.EveryStepCompletes : Prop :=
  ∀ s : State, s.Inv → ∃ t, step s = .next t

/-- O24. The state after reset of every instance within the constraints keeps the invariant, and so does the state after
reset of the default instance. -/
def Obligations.ResetStateKeepsInvariant : Prop :=
  (∀ p : Params, p.Valid → (State.resetOf p).Inv ∧ (State.resetOf p).ReadyInv) ∧
  State.reset.Inv ∧ State.reset.ReadyInv

/-- O25. The invariant (Inv-A and Inv-B of 10_state.md R29, the canonical form of the buffer, the constraints of the
instance) is kept by every step. That the header bytes are stored, which Inv-B needs, is the spec's own decision D6
(log entry 12), and that the length is below `LEN_LIMIT`, in Inv-A, rests on its decision D4 (log entry 13). -/
def Obligations.StepKeepsInvariant : Prop :=
  ∀ s t : State, s.Inv → step s = .next t → t.Inv

/-- O26. While `frame_ready` is true the block is at `idx = 0` and the buffer holds a well-formed frame of an accepted
length (43_frame_output.md R117 (a) to (d)): kept by every step. That the header bytes are stored is the spec's own
decision D6 (log entry 12), that an accepted length is below `LEN_LIMIT` its decision D4 (log entry 13), and that
`frame_ready` is a register its decision D8 (log entry 15). -/
def Obligations.StepKeepsReadyFrame : Prop :=
  ∀ s t : State, s.Inv → s.ReadyInv → step s = .next t → t.ReadyInv

/-- O27. Inv-C of 10_state.md R29: the candidate's bytes are the last `idx` bytes fed, in order; kept by every step, the
history growing by the byte the step was fed, if any. That the header bytes are stored is the spec's own decision D6
(log entry 12). -/
def Obligations.CandidateIsLastBytesFed : Prop :=
  ∀ (h : List Byte) (s t : State), s.Inv → Tracks h s → step s = .next t →
    Tracks (h ++ (nextStimulus s).fed) t

/-- O28. The completing step, with either outcome (42_content_checksum.md R104; 43_frame_output.md R117 (e), R120): the
buffer then holds, in order, the last `N + 6` bytes fed, and the result is true exactly when the byte is the
checksum of the `N + 5` bytes fed before it. That the header bytes and a failing last byte are stored is the spec's
own decision D6 (log entry 12). -/
def Obligations.CompletedCandidateIsLastBytesFed : Prop :=
  ∀ (h : List Byte) (s t : State) (b : Byte), s.Inv → Tracks h s → 4 ≤ s.idx →
    s.idx = (readCell s 3).toNat + 5 → step (s.setInputs [.feed b]) = .next t →
      t.idx = 0 ∧
      cells t ((readCell s 3).toNat + 6) = (h ++ [b]).drop (h.length + 1 - ((readCell s 3).toNat + 6)) ∧
      readCell t 3 = readCell s 3 ∧
      (t.frameReady = true ↔ b = checksum (h.drop (h.length - ((readCell s 3).toNat + 5))))

/-- O29. Inv-D of 10_state.md R29: cell 3 changes only in a step that is `FEED.LEN.OK` at `idx = 3`. -/
def Obligations.LengthCellWrittenOnlyByLenOk : Prop :=
  ∀ s t : State, step s = .next t → readCell t 3 ≠ readCell s 3 →
    s.idx = 3 ∧ ∃ b, operationOf s (nextStimulus s) = .feedLenOk b ∧ readCell t 3 = b

/-- O30. 10_state.md R23: a step writes at most one cell, the one `idx` points to before the step, and it writes none
unless it is fed a byte. -/
def Obligations.StepWritesOnlyIndexedCell : Prop :=
  ∀ s t : State, step s = .next t →
    SameCellsBut s.idx s t ∧
    ((nextStimulus s).fed = [] → t.buf = s.buf) ∧
    ∀ b, (nextStimulus s).fed = [b] → t.buf = s.buf ∨ readCell t s.idx = b

/-- O31. 10_state.md R25: every step leaves the index, adds one to it or sets it to 0, and in a state that keeps the
invariant the index after the step is at most `LEN_LIMIT + 4`. The bound rests on the spec's own decision D4 (log entry 13), the
case of `RESET` on its decision D9 (log entry 14). -/
def Obligations.IndexStaysIncrementsOrZeroes : Prop :=
  ∀ s t : State, step s = .next t →
    (t.idx = s.idx ∨ t.idx = s.idx + 1 ∨ t.idx = 0) ∧ (s.Inv → t.idx ≤ s.params.lenLimit + 4)

/-- O32. 20_memory.md R49: cells from `LEN_LIMIT + 5` upward are written by no step. The bound rests on the spec's own decision D4
(log entry 13). -/
def Obligations.CellsAboveLongestFrameNeverChange : Prop :=
  ∀ s t : State, s.Inv → step s = .next t →
    ∀ a, s.params.lenLimit + 5 ≤ a → readCell t a = readCell s a

/-- O33. 10_state.md R26: after a step at a clock edge `frame_ready` is true exactly when the step was
`FEED.ACC.LAST.OK`. That `frame_ready` is such a register is the spec's own decision D8 (log entry 15); a `READ` belongs
to no edge and leaves it (log entry 6). -/
def Obligations.ReadyExactlyAfterAcceptedChecksum : Prop :=
  ∀ s t : State, step s = .next t →
    (t.frameReady = true ↔
      (∃ b, operationOf s (nextStimulus s) = .feedAccLastOk b) ∨
      (∃ a, nextStimulus s = .read a) ∧ s.frameReady = true)

/-- O34. 10_state.md R27: the constants of the instance are changed by no step; and a step takes exactly one input from
the environment's pending inputs (log entries 1 and 5). -/
def Obligations.InstanceConstantsNeverChange : Prop :=
  ∀ s t : State, step s = .next t → t.params = s.params ∧ t.inputs = s.inputs.tail

/-- O35. 10_state.md R30, R31, R32 (the spec's own decisions D9 and D20): after reset of any instance the index is 0,
`frame_ready` is 0, no cell has been written, and every cell reads as its unspecified power-up byte. -/
def Obligations.ResetStateRegisters : Prop :=
  ∀ p : Params, (State.resetOf p).params = p ∧ (State.resetOf p).idx = 0 ∧ (State.resetOf p).frameReady = false ∧
    (State.resetOf p).buf = [] ∧ (∀ a, readCell (State.resetOf p) a = Config.powerUpByte a) ∧
    State.reset = State.resetOf Config.defaultParams

/-- O36. The widths of 00_scope.md R9: in a state that keeps the invariant the index fits in `IDX_W` bits and names a cell
of the buffer, and so does the completion position `buf[3] + 5` of a candidate whose length is in. -/
def Obligations.IndexFitsItsRegister : Prop :=
  ∀ s : State, s.Inv →
    s.idx < 2 ^ s.params.idxWidth ∧ s.idx < s.params.bufSize ∧
    (4 ≤ s.idx → (readCell s 3).toNat + 5 ≤ s.params.lenLimit + 4 ∧
      (readCell s 3).toNat + 5 < 2 ^ s.params.idxWidth ∧ (readCell s 3).toNat + 5 < s.params.bufSize)

/-- O37. 41_length_accumulation.md R92: in `AwaitLength` exactly `LEN_LIMIT` byte values are accepted, those below
`LEN_LIMIT` read as unsigned numbers, and `256 − LEN_LIMIT` are rejected. That `LEN_LIMIT` itself is rejected, and not
accepted, is the spec's own decision D4, which resolves conflict C1 (log entry 13). -/
def Obligations.ExactlyLenLimitLengthsAccepted : Prop :=
  ∀ s : State, s.params.Valid → s.idx = 3 →
    (∀ b : Byte, operationOf s (.feed b) = .feedLenOk b ↔ b.toNat < s.params.lenLimit) ∧
    (∀ b : Byte, operationOf s (.feed b) = .feedLenOver b ↔ s.params.lenLimit ≤ b.toNat) ∧
    ((List.range 256).filter fun n =>
      decide (operationOf s (.feed (BitVec.ofNat 8 n)) = .feedLenOk (BitVec.ofNat 8 n))).length = s.params.lenLimit ∧
    ((List.range 256).filter fun n =>
      decide (operationOf s (.feed (BitVec.ofNat 8 n)) = .feedLenOver (BitVec.ofNat 8 n))).length
        = 256 - s.params.lenLimit

/-! ### The checksum -/

/-- O38. 42_content_checksum.md R100: the checksum is the sum over the natural numbers mod 256, which is the same as
accumulating in an 8-bit register that starts from 0 and discards carries; and the block applies it at the
completing step to the `N + 5` bytes below `idx`. -/
def Obligations.ChecksumIsSumMod256 : Prop :=
  (∀ bs : List Byte, (checksum bs).toNat = (bs.map BitVec.toNat).sum % 256) ∧
  (∀ bs : List Byte, checksum bs = bs.foldl (fun acc b => acc + b) 0) ∧
  checksum [] = 0 ∧
  ∀ (s : State) (b : Byte), 4 ≤ s.idx → s.idx = (readCell s 3).toNat + 5 →
    (operationOf s (.feed b) = .feedAccLastOk b ↔ b = checksum (cells s s.idx)) ∧
    (cells s s.idx).length = (readCell s 3).toNat + 5

/-- O39. 42_content_checksum.md R101 (b) to (e): permuted bytes have the same checksum; the header counts as `0xFF`; changing
one bit of one summed byte always changes the checksum; changes that cancel in the sum do not. -/
def Obligations.ChecksumSensitivity : Prop :=
  (∀ xs ys : List Byte, xs.Perm ys → checksum xs = checksum ys) ∧
  (∀ bs : List Byte, checksum (0x55 :: 0xAA :: bs) = 0xFF + checksum bs) ∧
  (∀ (xs ys : List Byte) (b : Byte) (k : Nat), k < 8 →
    checksum (xs ++ (b ^^^ (1#8 <<< k)) :: ys) ≠ checksum (xs ++ b :: ys)) ∧
  (∀ (xs ys zs : List Byte) (a b d : Byte),
    checksum (xs ++ (a + d) :: ys ++ (b - d) :: zs) = checksum (xs ++ a :: ys ++ b :: zs))

/-- O40. 42_content_checksum.md R102, 10_state.md R28 (a): a running 8-bit accumulator equals the checksum of the candidate
after every step, and comparing it with the completing byte gives the block's own verdict. That the header bytes are
stored, and so summed, is the spec's own decision D6 (log entry 12). -/
def Obligations.AccumulatorEqualsChecksum : Prop :=
  (∀ (acc : Byte) (s t : State), AccHolds acc s → step s = .next t →
    AccHolds (accNext acc (operationOf s (nextStimulus s))) t) ∧
  ∀ (acc : Byte) (s : State) (b : Byte), AccHolds acc s → 4 ≤ s.idx → s.idx = (readCell s 3).toNat + 5 →
    (operationOf s (.feed b) = .feedAccLastOk b ↔ b = acc) ∧
    (operationOf s (.feed b) = .feedAccLastBad b ↔ b ≠ acc)

/-! ### Streams of bytes -/

/-- O41. `FRAME(addr, cmd, content)` expands to a well-formed frame of length `N + 6`, its checksum byte is
`0xFF + addr + N + cmd + Σ content` mod 256, and every well-formed frame is such an expansion (00_scope.md R14;
30_encoding.md R61, R62, R74). -/
def Obligations.FrameItemsAreTheWellFormedFrames : Prop :=
  (∀ (addr cmd : Byte) (content : List Byte), content.length < 256 →
    WellFormedFrame (frameOf addr cmd content) ∧
    (frameOf addr cmd content).length = content.length + 6 ∧
    (frameOf addr cmd content).getLast? =
      some (0xFF + addr + BitVec.ofNat 8 content.length + cmd + checksum content)) ∧
  ∀ F : List Byte, WellFormedFrame F →
    ∃ (addr cmd : Byte) (content : List Byte), content.length < 256 ∧ F = frameOf addr cmd content

/-- O42. 42_content_checksum.md R107: from any state at `idx = 0`, a well-formed frame whose length is below `LEN_LIMIT`
performs the operations named there, is reported exactly at its last byte, and lies in the buffer afterwards with
every cell above it unchanged; with a length not below `LEN_LIMIT` the fourth step is `FEED.LEN.OVER`, the block
is back at `idx = 0`, and nothing is reported. That `LEN_LIMIT` itself is rejected is the spec's own decision D4, and
that the header bytes are stored its decision D6 (log entries 13 and 12). -/
def Obligations.WellFormedFrameIsAccepted : Prop :=
  ∀ (s : State) (F : List Byte), s.Inv → s.idx = 0 → WellFormedFrame F →
    (F.length < s.params.lenLimit + 6 →
      ∃ t, feedBytes s F = some (frameEvents F fun b => ⟨.feedAccLastOk b, true⟩, t) ∧
        t.idx = 0 ∧ (∀ k (hk : k < F.length), readCell t k = F[k]) ∧
        ∀ a, F.length ≤ a → readCell t a = readCell s a) ∧
    (s.params.lenLimit + 6 ≤ F.length →
      ∃ t, feedBytes s (F.take 4) =
          some ([⟨.feedH0Hit, false⟩, ⟨.feedH1Hit, false⟩, ⟨.feedAddr (F.getD 2 0), false⟩,
            ⟨.feedLenOver (F.getD 3 0), false⟩], t) ∧ t.idx = 0)

/-- O43. 42_content_checksum.md R108, the first two cases: flip any one bit of the address, the command, a content byte or
the checksum byte of a well-formed frame of an accepted length, and feeding it from `idx = 0` reports nothing,
ends with `FEED.ACC.LAST.BAD`, and leaves the block at `idx = 0` with its invariant. -/
def Obligations.SingleBitErrorIsDropped : Prop :=
  ∀ (s : State) (F : List Byte) (p k : Nat), s.Inv → s.idx = 0 → WellFormedFrame F →
    F.length < s.params.lenLimit + 6 → p = 2 ∨ (4 ≤ p ∧ p < F.length) → k < 8 →
    ∃ t, feedBytes s (flipBit F p k) =
        some (frameEvents (flipBit F p k) fun b => ⟨.feedAccLastBad b, false⟩, t) ∧
      t.idx = 0 ∧ t.Inv

/-- O44. 70_reset_and_hazards.md R166 (a): bytes without `0x55`, fed from `idx = 0`, are all ignored. -/
def Obligations.NoiseWithoutHeaderByteIsIgnored : Prop :=
  ∀ (s : State) (bs : List Byte), s.idx = 0 → 0x55 ∉ bs →
    ∃ t, feedBytes s bs = some (bs.map fun b => ⟨.feedH0Miss b, false⟩, t) ∧ t.idx = 0 ∧ t.buf = s.buf

/-- O45. 70_reset_and_hazards.md R166 (b): a stream in which no `0x55` is directly followed by `0xAA`, fed from `idx = 0`,
keeps the index at 0 or 1, writes at most cell 0, and reports nothing. -/
def Obligations.StreamWithoutHeaderPairStaysInHeaderStates : Prop :=
  ∀ (s : State) (bs : List Byte), s.Inv → s.idx = 0 → ¬ [0x55, 0xAA] <:+: bs →
    ∃ es t, feedBytes s bs = some (es, t) ∧ t.idx ≤ 1 ∧ SameCellsBut 0 s t ∧ ∀ e ∈ es, e.ready = false

/-- O46. 70_reset_and_hazards.md R162: a stray `0x55` directly before a frame loses the frame, when the frame's own later
bytes hold no further `0x55`. That the missed byte is not looked at again is the spec's own decision D5 (log entry
11). -/
def Obligations.StrayHeaderByteLosesFrame : Prop :=
  ∀ (s : State) (F : List Byte), s.Inv → s.idx = 0 → WellFormedFrame F → 0x55 ∉ F.drop 2 →
    ∃ t, feedBytes s (0x55 :: F) =
        some (⟨.feedH0Hit, false⟩ :: ⟨.feedH1Miss 0x55, false⟩ ::
          (F.drop 1).map fun b => ⟨.feedH0Miss b, false⟩, t) ∧
      t.idx = 0 ∧ SameCellsBut 0 s t

/-- O47. 10_state.md R24, 30_encoding.md R72: once the length is in, exactly `remaining` further bytes are taken as part of
the candidate, at consecutive cells, whatever their values: before that the index only counts them, and the last
of them returns it to 0. That the last byte is stored even where it fails is the spec's own decision D6 (log entry
12). -/
def Obligations.CandidateTakesRemainingBytes : Prop :=
  ∀ (s : State) (bs : List Byte), s.Inv → 4 ≤ s.idx → bs.length ≤ remaining s →
    ∃ es t, feedBytes s bs = some (es, t) ∧
      (bs.length < remaining s → t.idx = s.idx + bs.length) ∧ (bs.length = remaining s → t.idx = 0) ∧
      (∀ k (hk : k < bs.length), readCell t (s.idx + k) = bs[k]) ∧
      ∀ a, a < s.idx ∨ s.idx + bs.length ≤ a → readCell t a = readCell s a

/-- O48. 70_reset_and_hazards.md R163: from the middle of a candidate the block is back in `AwaitHeader0` after at most
`LEN_LIMIT + 3` further bytes, whatever they are. The bound rests on the spec's own decision D4 (log entry 13). -/
def Obligations.BlockRealignsWithinBound : Prop :=
  ∀ (s : State) (bs : List Byte), s.Inv → 2 ≤ s.idx → bs.length = s.params.lenLimit + 3 →
    ∃ k, 1 ≤ k ∧ k ≤ s.params.lenLimit + 3 ∧ ∃ es t, feedBytes s (bs.take k) = some (es, t) ∧ t.idx = 0

/-- O49. 70_reset_and_hazards.md R165, 43_frame_output.md R116: idle edges and reads between the bytes of a stream are
invisible to the block. Leaving them out of the stream gives the same operations and results at the other inputs,
the same index and the same buffer. That any number of idle edges leaves a candidate as it is, with no time-out, is the
spec's own decision D12 (log entry 16), and that `IDLE` and `READ` exist with these effects its decision D7 (log entry
15). -/
def Obligations.IdleAndReadsAreInvisible : Prop :=
  ∀ (s t : State) (xs : List Stimulus) (es : List Event), runInputs s xs = some (es, t) →
    ∃ u, runInputs s (xs.filter fun x => !x.isQuiet) = some (es.filter fun e => !e.op.isQuiet, u) ∧
      u.idx = t.idx ∧ u.buf = t.buf

/-- O50. 10_state.md R31: no result of any stream of bytes depends on a cell that has not been written since the candidate
in progress began. -/
def Obligations.ResultsIgnoreUnwrittenCells : Prop :=
  ∀ (bs : List Byte) (s t : State), SameCandidate s t →
    (feedBytes s bs).map Prod.fst = (feedBytes t bs).map Prod.fst ∧
    ∀ es fs u v, feedBytes s bs = some (es, u) → feedBytes t bs = some (fs, v) → SameCandidate u v

/-- O51. 43_frame_output.md R118, 70_reset_and_hazards.md R160: a completed frame stays intact until the first `Feed` step
in `AwaitAddress`, which is at the earliest the third `Feed` step after the completing one. That the header hits store
is the spec's own decision D6 (log entry 12), and the statement holds with it. -/
def Obligations.CompletedFrameIntactUntilNextAddress : Prop :=
  ∀ (s t : State) (bs : List Byte) (es : List Event), s.idx = 0 → readCell s 0 = 0x55 → readCell s 1 = 0xAA →
    feedBytes s bs = some (es, t) →
    ((∀ e ∈ es, ∀ b, e.op ≠ .feedAddr b) → SameCells s t) ∧
    (bs.length ≤ 2 → ∀ e ∈ es, ∀ b, e.op ≠ .feedAddr b)

/-- O52. A run over a stream presented as the pending inputs of the state, in the host's own form of a run, is the run of
the statements above: the same final state, with what comes after the stream still pending. -/
def Obligations.PendingInputsRunInOrder : Prop :=
  ∀ (s t : State) (xs rest : List Stimulus) (es : List Event), runInputs s xs = some (es, t) →
    Host.Core.run Sys2Proof.core xs.length (s.setInputs (xs ++ rest)) = .next (t.setInputs rest)

/-! ### The duties of the reader -/

/-- O53. What 43_frame_output.md R117 and R118 give a reader to rely on: the frame the reader holds as readable is a
well-formed frame of an accepted length and lies in the buffer byte for byte; kept by every step while the reader
lets go of it as R122 (b) says. That the header bytes are stored is the spec's own decision D6 (log entry 12), and that
an accepted length is below `LEN_LIMIT` its decision D4 (log entry 13). -/
def Obligations.StepKeepsReadableFrame : Prop :=
  ∀ (F : Option (List Byte)) (s t : State), s.Inv → FrameHeld F s → step s = .next t →
    FrameHeld (heldUntilAddress F (operationOf s (nextStimulus s)) t) t

/-- O54. The duties (a) to (c) of the reader, 43_frame_output.md R122, as obligations of the environment, and what a reader
that keeps them is owed: each of its reads in the stream completes and returns the byte of the completed frame at
that position. How the duties are written is log entry 23; the read port is the spec's own decision D7 (log entry 15), and
that the header bytes are stored its decision D6 (log entry 12). -/
def Obligations.DutifulReaderReadsCompletedFrame : Prop :=
  ∀ (F : Option (List Byte)) (s : State) (xs ys zs : List Stimulus) (a : Nat), s.Inv → FrameHeld F s →
    ReaderKeepsDuties heldUntilAddress F s xs → xs = ys ++ .read a :: zs →
      ∃ es t f u, runInputs s ys = some (es, t) ∧ frameAfter heldUntilAddress F s ys = some f ∧
        step (t.setInputs [.read a]) = .next u ∧ f[a]? = some u.rdData

/-- O55. The simple rule of 43_frame_output.md R122 (b), to read before the next `Feed` step, is enough: each read in the
stream of a reader that keeps it, with duties (a) and (c), completes and returns the byte of the completed frame at that
position. How the duties are written is log entry 23; the read port is the spec's own decision D7, and what `RESET` leaves
of a frame its decision D9 (log entries 15, 14). -/
def Obligations.ReadingBeforeNextFeedSuffices : Prop :=
  ∀ (F : Option (List Byte)) (s : State) (xs ys zs : List Stimulus) (a : Nat), s.Inv → FrameHeld F s →
    ReaderKeepsDuties heldUntilFeed F s xs → xs = ys ++ .read a :: zs →
      ∃ es t f u, runInputs s ys = some (es, t) ∧ frameAfter heldUntilFeed F s ys = some f ∧
        step (t.setInputs [.read a]) = .next u ∧ f[a]? = some u.rdData

/-- O56. A reader that breaks its duties is given no fault, and in that step the byte the cell holds, stale or not: a `READ`
presented in any state at any address completes, and changes nothing that a fed byte's step depends on
(43_frame_output.md R122; that the read port has this form is the spec's own decision D7). -/
def Obligations.UndutifulReadIsNoFault : Prop :=
  ∀ (s : State) (a : Nat), ∃ t, step (s.setInputs [.read a]) = .next t ∧
    (a < s.params.bufSize → t.rdData = readCell s a) ∧ t.buf = s.buf ∧
    ∀ bs : List Byte, (feedBytes t bs).map Prod.fst = (feedBytes s bs).map Prod.fst
end

