-- ==== Sys2Proof/Laws/State.lean ====
section
/-! SUPPORT. One lemma per field per update of the state. -/

namespace Sys2Proof.Machine

variable (s : State)

@[simp] theorem State.setIdx_params (i : Nat) : (s.setIdx i).params = s.params := rfl
@[simp] theorem State.setIdx_idx (i : Nat) : (s.setIdx i).idx = i := rfl
@[simp] theorem State.setIdx_buf (i : Nat) : (s.setIdx i).buf = s.buf := rfl
@[simp] theorem State.setIdx_frameReady (i : Nat) : (s.setIdx i).frameReady = s.frameReady := rfl
@[simp] theorem State.setIdx_rdData (i : Nat) : (s.setIdx i).rdData = s.rdData := rfl
@[simp] theorem State.setIdx_draws (i : Nat) : (s.setIdx i).draws = s.draws := rfl
@[simp] theorem State.setIdx_inputs (i : Nat) : (s.setIdx i).inputs = s.inputs := rfl

@[simp] theorem State.setBuf_params (m : Memory) : (s.setBuf m).params = s.params := rfl
@[simp] theorem State.setBuf_idx (m : Memory) : (s.setBuf m).idx = s.idx := rfl
@[simp] theorem State.setBuf_buf (m : Memory) : (s.setBuf m).buf = m := rfl
@[simp] theorem State.setBuf_frameReady (m : Memory) : (s.setBuf m).frameReady = s.frameReady := rfl
@[simp] theorem State.setBuf_rdData (m : Memory) : (s.setBuf m).rdData = s.rdData := rfl
@[simp] theorem State.setBuf_draws (m : Memory) : (s.setBuf m).draws = s.draws := rfl
@[simp] theorem State.setBuf_inputs (m : Memory) : (s.setBuf m).inputs = s.inputs := rfl

@[simp] theorem State.setFrameReady_params (r : Bool) : (s.setFrameReady r).params = s.params := rfl
@[simp] theorem State.setFrameReady_idx (r : Bool) : (s.setFrameReady r).idx = s.idx := rfl
@[simp] theorem State.setFrameReady_buf (r : Bool) : (s.setFrameReady r).buf = s.buf := rfl
@[simp] theorem State.setFrameReady_frameReady (r : Bool) : (s.setFrameReady r).frameReady = r := rfl
@[simp] theorem State.setFrameReady_rdData (r : Bool) : (s.setFrameReady r).rdData = s.rdData := rfl
@[simp] theorem State.setFrameReady_draws (r : Bool) : (s.setFrameReady r).draws = s.draws := rfl
@[simp] theorem State.setFrameReady_inputs (r : Bool) : (s.setFrameReady r).inputs = s.inputs := rfl

@[simp] theorem State.setRdData_params (b : Byte) : (s.setRdData b).params = s.params := rfl
@[simp] theorem State.setRdData_idx (b : Byte) : (s.setRdData b).idx = s.idx := rfl
@[simp] theorem State.setRdData_buf (b : Byte) : (s.setRdData b).buf = s.buf := rfl
@[simp] theorem State.setRdData_frameReady (b : Byte) : (s.setRdData b).frameReady = s.frameReady := rfl
@[simp] theorem State.setRdData_rdData (b : Byte) : (s.setRdData b).rdData = b := rfl
@[simp] theorem State.setRdData_draws (b : Byte) : (s.setRdData b).draws = s.draws := rfl
@[simp] theorem State.setRdData_inputs (b : Byte) : (s.setRdData b).inputs = s.inputs := rfl

@[simp] theorem State.setDraws_params (n : Nat) : (s.setDraws n).params = s.params := rfl
@[simp] theorem State.setDraws_idx (n : Nat) : (s.setDraws n).idx = s.idx := rfl
@[simp] theorem State.setDraws_buf (n : Nat) : (s.setDraws n).buf = s.buf := rfl
@[simp] theorem State.setDraws_frameReady (n : Nat) : (s.setDraws n).frameReady = s.frameReady := rfl
@[simp] theorem State.setDraws_rdData (n : Nat) : (s.setDraws n).rdData = s.rdData := rfl
@[simp] theorem State.setDraws_draws (n : Nat) : (s.setDraws n).draws = n := rfl
@[simp] theorem State.setDraws_inputs (n : Nat) : (s.setDraws n).inputs = s.inputs := rfl

@[simp] theorem State.setInputs_params (xs : List Stimulus) : (s.setInputs xs).params = s.params := rfl
@[simp] theorem State.setInputs_idx (xs : List Stimulus) : (s.setInputs xs).idx = s.idx := rfl
@[simp] theorem State.setInputs_buf (xs : List Stimulus) : (s.setInputs xs).buf = s.buf := rfl
@[simp] theorem State.setInputs_frameReady (xs : List Stimulus) : (s.setInputs xs).frameReady = s.frameReady := rfl
@[simp] theorem State.setInputs_rdData (xs : List Stimulus) : (s.setInputs xs).rdData = s.rdData := rfl
@[simp] theorem State.setInputs_draws (xs : List Stimulus) : (s.setInputs xs).draws = s.draws := rfl
@[simp] theorem State.setInputs_inputs (xs : List Stimulus) : (s.setInputs xs).inputs = xs := rfl

@[simp] theorem State.setIdx_self : s.setIdx s.idx = s := rfl
@[simp] theorem State.setIdx_setIdx (i i' : Nat) : (s.setIdx i).setIdx i' = s.setIdx i' := rfl
@[simp] theorem State.setBuf_self : s.setBuf s.buf = s := rfl
@[simp] theorem State.setBuf_setBuf (m m' : Memory) : (s.setBuf m).setBuf m' = s.setBuf m' := rfl
@[simp] theorem State.setFrameReady_self : s.setFrameReady s.frameReady = s := rfl
@[simp] theorem State.setFrameReady_setFrameReady (r r' : Bool) : (s.setFrameReady r).setFrameReady r' = s.setFrameReady r' := rfl
@[simp] theorem State.setInputs_self : s.setInputs s.inputs = s := rfl
@[simp] theorem State.setInputs_setInputs (xs xs' : List Stimulus) : (s.setInputs xs).setInputs xs' = s.setInputs xs' := rfl

@[simp] theorem afterFetch_params : (afterFetch s).params = s.params := rfl
@[simp] theorem afterFetch_idx : (afterFetch s).idx = s.idx := rfl
@[simp] theorem afterFetch_buf : (afterFetch s).buf = s.buf := rfl
@[simp] theorem afterFetch_frameReady : (afterFetch s).frameReady = s.frameReady := rfl
@[simp] theorem afterFetch_rdData : (afterFetch s).rdData = s.rdData := rfl
@[simp] theorem afterFetch_draws : (afterFetch s).draws = s.draws := rfl
@[simp] theorem afterFetch_inputs : (afterFetch s).inputs = s.inputs.tail := rfl
@[simp] theorem afterFetch_setInputs (x : Stimulus) (xs : List Stimulus) :
    afterFetch (s.setInputs (x :: xs)) = s.setInputs xs := rfl
@[simp] theorem nextStimulus_setInputs (x : Stimulus) (xs : List Stimulus) :
    nextStimulus (s.setInputs (x :: xs)) = x := rfl

end Sys2Proof.Machine
end

