-- ==== Sys2Proof/Laws/Memory.lean ====
section
/-! SUPPORT. The laws of the receive buffer: read after write, and that a write keeps the canonical form. -/

namespace Sys2Proof.Machine

namespace Memory

@[simp] theorem lookup_nil (a : Nat) : Memory.lookup [] a = none := rfl

theorem lookup_cons (k : Nat) (v : Byte) (m : Memory) (a : Nat) :
    Memory.lookup ((k, v) :: m) a = if k = a then some v else m.lookup a := rfl

theorem lookup_write (m : Memory) (a : Nat) (v : Byte) (x : Nat) :
    (m.write a v).lookup x = if a = x then some v else m.lookup x := by
  induction m with
  | nil => simp [write, lookup_cons]
  | cons c m ih =>
    obtain ⟨k, w⟩ := c
    simp only [write]
    split
    · simp only [lookup_cons]
    · split
      · rename_i h; subst h; simp only [lookup_cons]; split <;> rfl
      · simp only [lookup_cons, ih]
        split <;> split <;> first | rfl | omega

@[simp] theorem lookup_write_same (m : Memory) (a : Nat) (v : Byte) : (m.write a v).lookup a = some v := by
  simp [lookup_write]

theorem lookup_write_other (m : Memory) {a x : Nat} (v : Byte) (h : x ≠ a) :
    (m.write a v).lookup x = m.lookup x := by
  simp [lookup_write, Ne.symm h]

@[simp] theorem read_write_same (m : Memory) (a : Nat) (v : Byte) : (m.write a v).read a = v := by
  simp [read]

theorem read_write_other (m : Memory) {a x : Nat} (v : Byte) (h : x ≠ a) :
    (m.write a v).read x = m.read x := by
  simp [read, lookup_write_other m v h]

theorem read_nil (a : Nat) : Memory.read [] a = Config.powerUpByte a := rfl

theorem mem_write_key {m : Memory} {a : Nat} {v : Byte} {c : Host.Cell} (h : c ∈ m.write a v) :
    c.1 = a ∨ c ∈ m := by
  induction m with
  | nil => simp_all [write]
  | cons d m ih =>
    obtain ⟨k, w⟩ := d
    simp only [write] at h
    split at h
    · rcases List.mem_cons.1 h with rfl | h <;> simp_all
    · split at h
      · rcases List.mem_cons.1 h with rfl | h <;> simp_all
      · rcases List.mem_cons.1 h with rfl | h
        · simp
        · rcases ih h with h | h <;> simp_all

/-- A write keeps the canonical form. -/
theorem wf_write {m : Memory} (h : m.wf) (a : Nat) (v : Byte) : (m.write a v).wf := by
  induction m with
  | nil => simp [write, wf]
  | cons c m ih =>
    obtain ⟨k, w⟩ := c
    simp only [wf, List.map_cons, List.pairwise_cons] at h ih ⊢
    simp only [write]
    split
    · rename_i hlt
      simp only [List.map_cons, List.pairwise_cons]
      refine ⟨fun x hx => ?_, h⟩
      rcases List.mem_cons.1 hx with rfl | hx
      · exact hlt
      · exact hlt.trans (h.1 x hx)
    · split
      · rename_i heq; subst heq
        simpa only [List.map_cons, List.pairwise_cons] using h
      · simp only [List.map_cons, List.pairwise_cons]
        refine ⟨fun x hx => ?_, ih h.2⟩
        obtain ⟨c, hc, rfl⟩ := List.mem_map.1 hx
        rcases mem_write_key hc with hc | hc
        · omega
        · exact h.1 _ (List.mem_map_of_mem hc)

/-- A write to a cell that exists keeps the listed cells inside the buffer. -/
theorem within_write {m : Memory} {n a : Nat} (h : m.Within n) (ha : a < n) (v : Byte) :
    (m.write a v).Within n := by
  intro c hc
  rcases mem_write_key hc with hc | hc
  · omega
  · exact h c hc

theorem isSome_lookup_write {m : Memory} {a x : Nat} {v : Byte} (h : (m.lookup x).isSome = true) :
    ((m.write a v).lookup x).isSome = true := by
  rw [lookup_write]; split <;> simp_all

theorem lookup_eq_none_of_lt {m : Memory} {a : Nat} (h : ∀ c ∈ m, a < c.1) : m.lookup a = none := by
  induction m with
  | nil => rfl
  | cons c m ih =>
    have h0 := h c (by simp)
    rw [show c = (c.1, c.2) from rfl, lookup_cons, if_neg (by omega)]
    exact ih fun d hd => h d (by simp [hd])

/-- Buffers in canonical form in which the same cells hold the same written bytes are equal data. -/
theorem eq_of_lookup_eq {m n : Memory} (hm : m.wf) (hn : n.wf) (h : ∀ a, m.lookup a = n.lookup a) : m = n := by
  induction m generalizing n with
  | nil =>
    cases n with
    | nil => rfl
    | cons c n =>
      have := h c.1
      rw [show c = (c.1, c.2) from rfl, lookup_cons] at this
      simp at this
  | cons c m ih =>
    cases n with
    | nil =>
      have := h c.1
      rw [show c = (c.1, c.2) from rfl, lookup_cons] at this
      simp at this
    | cons d n =>
      obtain ⟨k, v⟩ := c
      obtain ⟨l, w⟩ := d
      simp only [wf, List.map_cons, List.pairwise_cons, List.mem_map, forall_exists_index, and_imp,
        forall_apply_eq_imp_iff₂] at hm hn
      have hk := h k
      have hl := h l
      simp only [lookup_cons, if_true] at hk hl
      have hkl : k = l := by
        rcases Nat.lt_trichotomy k l with hlt | heq | hgt
        · rw [if_neg (by omega), lookup_eq_none_of_lt (fun c hc => hlt.trans (hn.1 c hc))] at hk
          exact absurd hk (by simp)
        · exact heq
        · rw [if_neg (by omega), lookup_eq_none_of_lt (fun c hc => Nat.lt_trans hgt (hm.1 c hc))] at hl
          exact absurd hl (by simp)
      subst hkl
      have hv : v = w := by simpa using hk
      subst hv
      congr 1
      refine ih hm.2 hn.2 fun a => ?_
      by_cases ha : k = a
      · subst ha
        rw [lookup_eq_none_of_lt (fun c hc => hm.1 c hc), lookup_eq_none_of_lt (fun c hc => hn.1 c hc)]
      · have := h a
        simpa only [lookup_cons, if_neg ha] using this

end Memory

end Sys2Proof.Machine
end

