-- ==== Sys2Proof/Laws/Ops.lean ====
section
/-! SUPPORT. The laws of the named operations: reading a cell, the candidate's bytes, the checksum, and the common
shape of the storing operations. -/

namespace Sys2Proof.Machine

variable (s : State)

@[simp] theorem readCell_setIdx (i a : Nat) : readCell (s.setIdx i) a = readCell s a := rfl
@[simp] theorem readCell_setFrameReady (r : Bool) (a : Nat) : readCell (s.setFrameReady r) a = readCell s a := rfl
@[simp] theorem readCell_setRdData (b : Byte) (a : Nat) : readCell (s.setRdData b) a = readCell s a := rfl
@[simp] theorem readCell_setDraws (n a : Nat) : readCell (s.setDraws n) a = readCell s a := rfl
@[simp] theorem readCell_setInputs (xs : List Stimulus) (a : Nat) : readCell (s.setInputs xs) a = readCell s a := rfl
@[simp] theorem readCell_afterFetch (a : Nat) : readCell (afterFetch s) a = readCell s a := rfl
theorem readCell_setBuf (m : Memory) (a : Nat) : readCell (s.setBuf m) a = m.read a := rfl

@[simp] theorem operationOf_setInputs (xs : List Stimulus) (x : Stimulus) :
    operationOf (s.setInputs xs) x = operationOf s x := rfl

theorem readCell_write_same (a : Nat) (v : Byte) : readCell (s.setBuf (s.buf.write a v)) a = v := by
  simp [readCell_setBuf]

theorem readCell_write_other {a x : Nat} (v : Byte) (h : x ≠ a) :
    readCell (s.setBuf (s.buf.write a v)) x = readCell s x :=
  Memory.read_write_other _ v h

@[simp] theorem cells_zero : cells s 0 = [] := rfl

@[simp] theorem cells_length (n : Nat) : (cells s n).length = n := by simp [cells]

theorem cells_succ (n : Nat) : cells s (n + 1) = cells s n ++ [readCell s n] := by
  simp [cells, List.range_succ]

@[simp] theorem cells_getElem (n k : Nat) (h : k < (cells s n).length) : (cells s n)[k] = readCell s k := by
  simp [cells]

theorem cells_getElem? {n k : Nat} (h : k < n) : (cells s n)[k]? = some (readCell s k) := by
  simp [cells, h]

/-- The first `n` cells depend on nothing but what those cells read as. -/
theorem cells_congr {s t : State} {n : Nat} (h : ∀ a < n, readCell s a = readCell t a) : cells s n = cells t n := by
  apply List.map_congr_left
  intro a ha
  exact h a (List.mem_range.1 ha)

@[simp] theorem checksum_nil : checksum [] = 0 := rfl

theorem byteSum_append (xs ys : List Byte) : byteSum (xs ++ ys) = byteSum xs + byteSum ys := by
  simp [byteSum]

theorem checksum_toNat (bs : List Byte) : (checksum bs).toNat = byteSum bs % 256 := by
  simp [checksum]

theorem checksum_append (xs ys : List Byte) : checksum (xs ++ ys) = checksum xs + checksum ys := by
  simp [checksum, byteSum_append, BitVec.ofNat_add]

@[simp] theorem checksum_singleton (b : Byte) : checksum [b] = b := by
  simp [checksum, byteSum]

theorem checksum_cons (b : Byte) (bs : List Byte) : checksum (b :: bs) = b + checksum bs := by
  rw [← List.singleton_append, checksum_append, checksum_singleton]

/-- The state after a storing operation. -/
def stored (s : State) (a : Nat) (b : Byte) (i : Nat) (r : Bool) : State :=
  ((s.setBuf (s.buf.write a b)).setIdx i).setFrameReady r

variable (a : Nat) (b : Byte) (i : Nat) (r : Bool)

@[simp] theorem stored_params : (stored s a b i r).params = s.params := rfl
@[simp] theorem stored_idx : (stored s a b i r).idx = i := rfl
@[simp] theorem stored_buf : (stored s a b i r).buf = s.buf.write a b := rfl
@[simp] theorem stored_frameReady : (stored s a b i r).frameReady = r := rfl
@[simp] theorem stored_rdData : (stored s a b i r).rdData = s.rdData := rfl
@[simp] theorem stored_draws : (stored s a b i r).draws = s.draws := rfl
@[simp] theorem stored_inputs : (stored s a b i r).inputs = s.inputs := rfl
@[simp] theorem readCell_stored_same : readCell (stored s a b i r) a = b := Memory.read_write_same ..
theorem readCell_stored_other {x : Nat} (h : x ≠ a) : readCell (stored s a b i r) x = readCell s x :=
  Memory.read_write_other _ b h

theorem readCell_stored (x : Nat) : readCell (stored s a b i r) x = if x = a then b else readCell s x := by
  split
  · subst_vars; simp
  · exact readCell_stored_other s a b i r ‹_›

/-- The cells up to and with the one stored are the cells before it and the byte. -/
theorem cells_stored_succ : cells (stored s a b i r) (a + 1) = cells s a ++ [b] := by
  rw [cells_succ, readCell_stored_same]
  congr 1
  exact cells_congr fun x hx => readCell_stored_other s a b i r (by omega)

/-- Everything a storing operation can do: it stores where the cell exists, and stops where it does not. -/
theorem takeByte_eq :
    takeByte s a b i r =
      if a < s.params.bufSize then .next (stored s a b i r) else .fault .writeOutsideBuffer := rfl

theorem takeByte_of_lt (h : a < s.params.bufSize) : takeByte s a b i r = .next (stored s a b i r) := if_pos h

theorem takeByte_next {t : State} (h : takeByte s a b i r = .next t) :
    a < s.params.bufSize ∧ t = stored s a b i r := by
  rw [takeByte_eq] at h
  split at h
  · cases h; exact ⟨‹_›, rfl⟩
  · cases h

end Sys2Proof.Machine
end

