-- ==== Sys2Proof/Laws/PerInstr.lean ====
section
/-! SUPPORT. Families of facts about every operation as syntax, one lemma per constructor. -/

namespace Sys2Proof.Laws.FedByte

/-- The byte an operation consumes: its operand, the constant of a header hit, and none for a `PORT` row (R67, R68). -/
def byteOf : Instr → List Byte
  | .feedH0Hit => [Config.hdr0]
  | .feedH0Miss b => [b]
  | .feedH1Hit => [Config.hdr1]
  | .feedH1Miss b => [b]
  | .feedAddr b => [b]
  | .feedLenOk b => [b]
  | .feedLenOver b => [b]
  | .feedAccStore b => [b]
  | .feedAccLastOk b => [b]
  | .feedAccLastBad b => [b]
  | .reset => []
  | .read _ => []
  | .idle => []

/-- The input word of an operation feeds exactly the byte the operation consumes, and it is quiet exactly when the
operation is. -/
def Statement (i : Instr) : Prop := (encode i).fed = byteOf i ∧ (encode i).isQuiet = i.isQuiet

theorem feedH0Hit : Statement .feedH0Hit := ⟨rfl, rfl⟩
theorem feedH0Miss (b : Byte) : Statement (.feedH0Miss b) := ⟨rfl, rfl⟩
theorem feedH1Hit : Statement .feedH1Hit := ⟨rfl, rfl⟩
theorem feedH1Miss (b : Byte) : Statement (.feedH1Miss b) := ⟨rfl, rfl⟩
theorem feedAddr (b : Byte) : Statement (.feedAddr b) := ⟨rfl, rfl⟩
theorem feedLenOk (b : Byte) : Statement (.feedLenOk b) := ⟨rfl, rfl⟩
theorem feedLenOver (b : Byte) : Statement (.feedLenOver b) := ⟨rfl, rfl⟩
theorem feedAccStore (b : Byte) : Statement (.feedAccStore b) := ⟨rfl, rfl⟩
theorem feedAccLastOk (b : Byte) : Statement (.feedAccLastOk b) := ⟨rfl, rfl⟩
theorem feedAccLastBad (b : Byte) : Statement (.feedAccLastBad b) := ⟨rfl, rfl⟩
theorem reset : Statement .reset := ⟨rfl, rfl⟩
theorem read (a : Nat) : Statement (.read a) := ⟨rfl, rfl⟩
theorem idle : Statement .idle := ⟨rfl, rfl⟩

end Sys2Proof.Laws.FedByte
end

