-- ==== Sys2Proof/Laws/Step.lean ====
section
/-! SUPPORT. Everything one step can do, said once: the operation selected, the condition it was selected under, and
the state it gives. -/

namespace Sys2Proof.Machine

/-- The decode of a fed byte in a state, written over the fields of the state (R67). -/
theorem operationOf_feed (s : State) (b : Byte) : operationOf s (.feed b) =
    if s.idx = 0 then if b = 0x55 then .feedH0Hit else .feedH0Miss b
    else if s.idx = 1 then if b = 0xAA then .feedH1Hit else .feedH1Miss b
    else if s.idx = 2 then .feedAddr b
    else if s.idx = 3 then if b.toNat < s.params.lenLimit then .feedLenOk b else .feedLenOver b
    else if s.idx = (contentLength s).toNat + 5 then
      if b = checksum (candidate s) then .feedAccLastOk b else .feedAccLastBad b
    else .feedAccStore b := rfl

/-- The thirteen ways a step ends in a next state: the input word, the operation it selected, the condition of its row
(R67), and the state the operation's rule gives. -/
inductive StepCase (s : State) : Stimulus → Instr → State → Prop
  | h0Hit (hi : s.idx = 0) (hr : 0 < s.params.bufSize) :
      StepCase s (.feed 0x55) .feedH0Hit (stored (afterFetch s) 0 0x55 1 false)
  | h0Miss (b : Byte) (hi : s.idx = 0) (hb : b ≠ 0x55) :
      StepCase s (.feed b) (.feedH0Miss b) (passOver (afterFetch s))
  | h1Hit (hi : s.idx = 1) (hr : 1 < s.params.bufSize) :
      StepCase s (.feed 0xAA) .feedH1Hit (stored (afterFetch s) 1 0xAA 2 false)
  | h1Miss (b : Byte) (hi : s.idx = 1) (hb : b ≠ 0xAA) :
      StepCase s (.feed b) (.feedH1Miss b) (resynchronize (afterFetch s))
  | addr (b : Byte) (hi : s.idx = 2) (hr : 2 < s.params.bufSize) :
      StepCase s (.feed b) (.feedAddr b) (stored (afterFetch s) 2 b 3 false)
  | lenOk (b : Byte) (hi : s.idx = 3) (hb : b.toNat < s.params.lenLimit) (hr : 3 < s.params.bufSize) :
      StepCase s (.feed b) (.feedLenOk b) (stored (afterFetch s) 3 b 4 false)
  | lenOver (b : Byte) (hi : s.idx = 3) (hb : s.params.lenLimit ≤ b.toNat) :
      StepCase s (.feed b) (.feedLenOver b) (resynchronize (afterFetch s))
  | accStore (b : Byte) (hi : 4 ≤ s.idx) (hn : s.idx ≠ (contentLength s).toNat + 5) (hr : s.idx < s.params.bufSize) :
      StepCase s (.feed b) (.feedAccStore b) (stored (afterFetch s) s.idx b (s.idx + 1) false)
  | accLastOk (b : Byte) (hi : 4 ≤ s.idx) (hn : s.idx = (contentLength s).toNat + 5)
      (hb : b = checksum (candidate s)) (hr : s.idx < s.params.bufSize) :
      StepCase s (.feed b) (.feedAccLastOk b) (stored (afterFetch s) s.idx b 0 true)
  | accLastBad (b : Byte) (hi : 4 ≤ s.idx) (hn : s.idx = (contentLength s).toNat + 5)
      (hb : b ≠ checksum (candidate s)) (hr : s.idx < s.params.bufSize) :
      StepCase s (.feed b) (.feedAccLastBad b) (stored (afterFetch s) s.idx b 0 false)
  | reset (v : Bool) (b : Byte) : StepCase s (.edge true v b) .reset (resynchronize (afterFetch s))
  | readCell (a : Nat) (ha : a < s.params.bufSize) :
      StepCase s (.read a) (.read a) ((afterFetch s).setRdData (readCell s a))
  | readFree (a : Nat) (ha : s.params.bufSize ≤ a) :
      StepCase s (.read a) (.read a) (((afterFetch s).setDraws (s.draws + 1)).setRdData (Config.freeByte s.draws))
  | idle (b : Byte) : StepCase s (.edge false false b) .idle (passOver (afterFetch s))

/-- The ten rows for a fed byte, as the ways one of them can be selected (R67). -/
inductive FeedRow (s : State) (b : Byte) : Instr → Prop
  | h0Hit (hi : s.idx = 0) (hb : b = 0x55) : FeedRow s b .feedH0Hit
  | h0Miss (hi : s.idx = 0) (hb : b ≠ 0x55) : FeedRow s b (.feedH0Miss b)
  | h1Hit (hi : s.idx = 1) (hb : b = 0xAA) : FeedRow s b .feedH1Hit
  | h1Miss (hi : s.idx = 1) (hb : b ≠ 0xAA) : FeedRow s b (.feedH1Miss b)
  | addr (hi : s.idx = 2) : FeedRow s b (.feedAddr b)
  | lenOk (hi : s.idx = 3) (hb : b.toNat < s.params.lenLimit) : FeedRow s b (.feedLenOk b)
  | lenOver (hi : s.idx = 3) (hb : s.params.lenLimit ≤ b.toNat) : FeedRow s b (.feedLenOver b)
  | accStore (hi : 4 ≤ s.idx) (hn : s.idx ≠ (contentLength s).toNat + 5) : FeedRow s b (.feedAccStore b)
  | accLastOk (hi : 4 ≤ s.idx) (hn : s.idx = (contentLength s).toNat + 5) (hb : b = checksum (candidate s)) :
      FeedRow s b (.feedAccLastOk b)
  | accLastBad (hi : 4 ≤ s.idx) (hn : s.idx = (contentLength s).toNat + 5) (hb : b ≠ checksum (candidate s)) :
      FeedRow s b (.feedAccLastBad b)

theorem feed_row (s : State) (b : Byte) : FeedRow s b (operationOf s (.feed b)) := by
  rw [operationOf_feed]
  split
  · split
    · exact .h0Hit ‹_› ‹_›
    · exact .h0Miss ‹_› ‹_›
  · split
    · split
      · exact .h1Hit ‹_› ‹_›
      · exact .h1Miss ‹_› ‹_›
    · split
      · exact .addr ‹_›
      · split
        · split
          · exact .lenOk ‹_› ‹_›
          · exact .lenOver ‹_› (Nat.le_of_not_lt ‹_›)
        · have h4 : 4 ≤ s.idx := by omega
          split
          · split
            · exact .accLastOk h4 ‹_› ‹_›
            · exact .accLastBad h4 ‹_› ‹_›
          · exact .accStore h4 ‹_›

theorem exec_feed_cases {s t : State} {b : Byte}
    (h : exec (operationOf s (.feed b)) (afterFetch s) = .next t) :
    StepCase s (.feed b) (operationOf s (.feed b)) t := by
  have row := feed_row s b
  revert h row
  generalize operationOf s (.feed b) = op
  intro h row
  cases row with
  | h0Hit hi hb => obtain ⟨hr, rfl⟩ := takeByte_next _ _ _ _ _ h; subst hb; exact .h0Hit hi hr
  | h0Miss hi hb => cases h; exact .h0Miss b hi hb
  | h1Hit hi hb => obtain ⟨hr, rfl⟩ := takeByte_next _ _ _ _ _ h; subst hb; exact .h1Hit hi hr
  | h1Miss hi hb => cases h; exact .h1Miss b hi hb
  | addr hi => obtain ⟨hr, rfl⟩ := takeByte_next _ _ _ _ _ h; exact .addr b hi hr
  | lenOk hi hb => obtain ⟨hr, rfl⟩ := takeByte_next _ _ _ _ _ h; exact .lenOk b hi hb hr
  | lenOver hi hb => cases h; exact .lenOver b hi hb
  | accStore hi hn => obtain ⟨hr, rfl⟩ := takeByte_next _ _ _ _ _ h; exact .accStore b hi hn hr
  | accLastOk hi hn hb => obtain ⟨hr, rfl⟩ := takeByte_next _ _ _ _ _ h; exact .accLastOk b hi hn hb hr
  | accLastBad hi hn hb => obtain ⟨hr, rfl⟩ := takeByte_next _ _ _ _ _ h; exact .accLastBad b hi hn hb hr

/-- The inversion lemma of `step`. -/
theorem step_cases {s t : State} (h : step s = .next t) :
    StepCase s (nextStimulus s) (operationOf s (nextStimulus s)) t := by
  unfold step at h
  cases hx : nextStimulus s with
  | edge rst valid b =>
    rw [hx] at h
    cases rst with
    | true => cases h; exact .reset valid b
    | false =>
      cases valid with
      | true => exact exec_feed_cases h
      | false => cases h; exact .idle b
  | read a =>
    rw [hx] at h
    change execRead a (afterFetch s) = .next t at h
    unfold execRead at h
    split at h
    · cases h; exact .readCell a ‹_›
    · cases h; exact .readFree a (Nat.le_of_not_lt ‹_›)

/-- The inversion lemma of a step on one input presented alone. -/
theorem step_one_cases {s t : State} {x : Stimulus} (h : step (s.setInputs [x]) = .next t) :
    StepCase (s.setInputs [x]) x (operationOf s x) t :=
  step_cases h

end Sys2Proof.Machine
end

