-- ==== Sys2Proof/Laws/Runs.lean ====
section
/-! SUPPORT. Runs over a stream of inputs: the first input, and streams put one after the other. -/

namespace Sys2Proof.Machine

@[simp] theorem runInputs_nil (s : State) : runInputs s [] = some ([], s) := rfl

theorem runInputs_cons_of_next {s t : State} {x : Stimulus} (xs : List Stimulus)
    (h : step (s.setInputs [x]) = .next t) :
    runInputs s (x :: xs) = (runInputs t xs).map fun r => (⟨operationOf s x, t.frameReady⟩ :: r.1, r.2) := by
  simp only [runInputs, h]

/-- A run over at least one input begins with a step. -/
theorem runInputs_cons_some {s u : State} {x : Stimulus} {xs : List Stimulus} {es : List Event}
    (h : runInputs s (x :: xs) = some (es, u)) :
    ∃ t es', step (s.setInputs [x]) = .next t ∧ runInputs t xs = some (es', u) ∧
      es = ⟨operationOf s x, t.frameReady⟩ :: es' := by
  simp only [runInputs] at h
  split at h
  · rename_i t ht
    simp only [Option.map_eq_some_iff, Prod.mk.injEq] at h
    obtain ⟨⟨es', v⟩, hr, rfl, rfl⟩ := h
    exact ⟨t, es', ht, hr, rfl⟩
  · cases h
  · cases h

/-- Cutting a stream in two changes nothing (70_reset_and_hazards.md R165). -/
theorem runInputs_append (s : State) (xs ys : List Stimulus) :
    runInputs s (xs ++ ys) =
      (runInputs s xs).bind fun r => (runInputs r.2 ys).map fun q => (r.1 ++ q.1, q.2) := by
  induction xs generalizing s with
  | nil => simp
  | cons x xs ih =>
    simp only [List.cons_append, runInputs]
    split
    · rename_i t ht
      rw [ih]
      cases runInputs t xs with
      | none => rfl
      | some r => cases h : runInputs r.2 ys <;> simp [h]
    · rfl
    · rfl

theorem runInputs_append_of_some {s t : State} {xs : List Stimulus} {es : List Event} (ys : List Stimulus)
    (h : runInputs s xs = some (es, t)) :
    runInputs s (xs ++ ys) = (runInputs t ys).map fun q => (es ++ q.1, q.2) := by
  rw [runInputs_append, h]; rfl

@[simp] theorem feedBytes_nil (s : State) : feedBytes s [] = some ([], s) := rfl

theorem feedBytes_cons (s : State) (b : Byte) (bs : List Byte) :
    feedBytes s (b :: bs) = runInputs s (.feed b :: bs.map .feed) := rfl

theorem feedBytes_append_of_some {s t : State} {xs : List Byte} {es : List Event} (ys : List Byte)
    (h : feedBytes s xs = some (es, t)) :
    feedBytes s (xs ++ ys) = (feedBytes t ys).map fun q => (es ++ q.1, q.2) := by
  rw [feedBytes, List.map_append]; exact runInputs_append_of_some _ h

/-- The frame in the buffer depends on nothing but what the cells read as. -/
theorem frameInBuffer_congr {s t : State} (h : SameCells s t) : frameInBuffer t = frameInBuffer s := by
  simp only [frameInBuffer, contentLength, h 3]
  exact cells_congr fun a _ => h a

@[simp] theorem frameInBuffer_length (s : State) : (frameInBuffer s).length = (contentLength s).toNat + 6 := by
  simp [frameInBuffer]

theorem frameAfter_cons_of_next {held : Option (List Byte) → Instr → State → Option (List Byte)}
    {F : Option (List Byte)} {s t : State} {x : Stimulus} (xs : List Stimulus) (h : step (s.setInputs [x]) = .next t) :
    frameAfter held F s (x :: xs) = frameAfter held (held F (operationOf s x) t) t xs := by
  simp only [frameAfter, h]

/-- The simple rule holds a frame no longer than the exact one does. -/
theorem heldUntilFeed_le {F G : Option (List Byte)} (h : F = none ∨ F = G) (op : Instr) (t : State) :
    heldUntilFeed F op t = none ∨ heldUntilFeed F op t = heldUntilAddress G op t := by
  cases op <;> simp [heldUntilFeed, heldUntilAddress, h]

/-- A reader that keeps its duties by the simple rule keeps them by the exact one. -/
theorem keepsDuties_of_untilFeed {F G : Option (List Byte)} {s : State} {xs : List Stimulus} (h : F = none ∨ F = G)
    (hd : ReaderKeepsDuties heldUntilFeed F s xs) : ReaderKeepsDuties heldUntilAddress G s xs := by
  induction xs generalizing F G s with
  | nil => trivial
  | cons x xs ih =>
    refine ⟨fun a ha => ?_, fun t ht => ih (heldUntilFeed_le h _ t) (hd.2 t ht)⟩
    obtain ⟨hs, hb⟩ := hd.1 a ha
    rcases h with rfl | rfl
    · simp at hs
    · exact ⟨hs, hb⟩

end Sys2Proof.Machine
end

