-- ==== Sys2Proof/Tests/Slice0.lean ====
section
/-! SUPPORT. The model's own tests, each about one step or one word, with expected values from the spec (95_test_vectors.md
and the worked examples of the rules); and for every obligation with hypotheses a state and operands that meet
them. -/

namespace Sys2Proof.Tests

open Sys2Proof Sys2Proof.Machine

/-! ### Ill-formed terms are refused -/

theorem test_wf_h0_miss_of_header_byte : WellFormed ⟨122, 128⟩ (.feedH0Miss 0x55) = false := by decide
theorem test_wf_h1_miss_of_header_byte : WellFormed ⟨122, 128⟩ (.feedH1Miss 0xAA) = false := by decide
theorem test_wf_len_ok_at_limit : WellFormed ⟨122, 128⟩ (.feedLenOk 0x7A) = false := by decide
theorem test_wf_len_over_below_limit : WellFormed ⟨122, 128⟩ (.feedLenOver 0x79) = false := by decide
theorem test_wf_miss_of_other_header_byte :
    WellFormed ⟨122, 128⟩ (.feedH0Miss 0xAA) = true ∧ WellFormed ⟨122, 128⟩ (.feedH1Miss 0x55) = true := by decide

/-! ### Words written out from 30_encoding.md R67, and the widths of 00_scope.md R9 -/

theorem test_decode_h0_hit : decode ⟨122, 0, 0, 0⟩ (.edge false true 0b01010101#8) = .feedH0Hit := by decide
theorem test_decode_h0_miss : decode ⟨122, 0, 0, 0⟩ (.edge false true 0b10101010#8) = .feedH0Miss 0xAA := by decide
theorem test_decode_h1_hit : decode ⟨122, 1, 0, 0⟩ (.edge false true 0b10101010#8) = .feedH1Hit := by decide
theorem test_decode_h1_miss : decode ⟨122, 1, 0, 0⟩ (.edge false true 0b01010101#8) = .feedH1Miss 0x55 := by decide
theorem test_decode_addr : decode ⟨122, 2, 0, 0⟩ (.edge false true 0b01010101#8) = .feedAddr 0x55 := by decide
theorem test_decode_len_ok : decode ⟨122, 3, 0, 0⟩ (.edge false true 0b01111001#8) = .feedLenOk 0x79 := by decide
theorem test_decode_len_over : decode ⟨122, 3, 0, 0⟩ (.edge false true 0b01111010#8) = .feedLenOver 0x7A := by decide
theorem test_decode_acc_store : decode ⟨122, 4, 0x0A, 0⟩ (.edge false true 0b00101010#8) = .feedAccStore 0x2A := by decide
theorem test_decode_acc_last_ok :
    decode ⟨122, 5, 0, 0x3C⟩ (.edge false true 0b00111100#8) = .feedAccLastOk 0x3C := by decide
theorem test_decode_acc_last_bad :
    decode ⟨122, 5, 0, 0x3C⟩ (.edge false true 0b00111101#8) = .feedAccLastBad 0x3D := by decide
/-- `rst = 1` wins over `in_valid = 1` (60_exceptions.md R137). -/
theorem test_decode_reset : decode ⟨122, 0, 0, 0⟩ (.edge true true 0x55) = .reset := by decide
theorem test_decode_read : decode ⟨122, 0, 0, 0⟩ (.read 3) = .read 3 := by decide
/-- `in_data` is ignored when `in_valid = 0` (43_frame_output.md R121). -/
theorem test_decode_idle : decode ⟨122, 0, 0, 0⟩ (.edge false false 0x55) = .idle := by decide
/-- V-P4: the position 259 of the checksum is not wrapped at 8 bits, so 3 is not it. -/
theorem test_decode_position_not_wrapped :
    decode ⟨255, 259, 0xFE, 0x44⟩ (.edge false true 0x44#8) = .feedAccLastOk 0x44 ∧
    decode ⟨255, 4, 0xFF, 0x44⟩ (.edge false true 0x44#8) = .feedAccStore 0x44 := by decide

theorem test_table_word_0x55 : decodeTableWord 8 0x55 = some .feedH0Hit := by decide
theorem test_table_word_0xAA : decodeTableWord 8 0xAA = some .feedH1Hit := by decide
theorem test_table_word_no_bits : decodeTableWord 0 0 = some .idle := by decide
theorem test_table_word_wrong_width : decodeTableWord 16 0x55 = none := by decide

theorem test_index_width : Params.idxWidth ⟨122, 128⟩ = 7 ∧ Params.idxWidth ⟨255, 260⟩ = 9 := by decide +kernel
theorem test_address_width : Params.addrWidth ⟨122, 128⟩ = 7 := by decide +kernel

/-! ### Small states: a candidate `55 AA 11 00 2C` of the default instance, and of the smallest one -/

/-- A state with the given index and buffer, otherwise as after reset. -/
def mk (p : Params) (idx : Nat) (buf : Memory) : State := { State.resetOf p with idx := idx, buf := buf }

def dflt : Params := ⟨122, 128⟩
def tiny : Params := ⟨1, 6⟩

def s1 : State := mk dflt 1 [(0, 0x55)]
def s2 : State := mk dflt 2 [(0, 0x55), (1, 0xAA)]
/-- Cell 3 still holds the length of an earlier candidate. -/
def s3 : State := mk dflt 3 [(0, 0x55), (1, 0xAA), (2, 0x11), (3, 0x07)]
def s4 : State := mk dflt 4 [(0, 0x55), (1, 0xAA), (2, 0x11), (3, 0x00)]
def s5 : State := mk dflt 5 [(0, 0x55), (1, 0xAA), (2, 0x11), (3, 0x00), (4, 0x2C)]
/-- The smallest instance at its largest index, `LEN_LIMIT + 4 = 5`. -/
def t5 : State := mk tiny 5 [(0, 0x55), (1, 0xAA), (2, 0x11), (3, 0x00), (4, 0x2C)]
def t2 : State := mk tiny 2 [(0, 0x55), (1, 0xAA)]
def t3 : State := mk tiny 3 [(0, 0x55), (1, 0xAA), (2, 0x11)]
/-- After `KNOCK` was accepted. -/
def done : State :=
  { mk dflt 0 [(0, 0x55), (1, 0xAA), (2, 0x11), (3, 0x00), (4, 0x2C), (5, 0x3C)] with frameReady := true }

/-- The state after one step on one input. -/
def after (s : State) (x : Stimulus) : Option State :=
  match step (s.setInputs [x]) with
  | .next t => some t
  | .fault _ => none
  | .refused _ => none

/-- What an observer sees of a state: the index, the result, one cell. -/
def see (a : Nat) (t : State) : Nat × Bool × Byte := (t.idx, t.frameReady, readCell t a)

/-! ### One step of each operation -/

/-- Worked example of R80. -/
theorem test_h0_hit : (after State.reset (.feed 0x55)).map (see 0) = some (1, false, 0x55) := by decide
/-- Worked example of R81; `frame_ready` is a pulse, so it falls (R121). -/
theorem test_h0_miss : (after done (.feed 0x54)).map (see 0) = some (0, false, 0x55) := by decide
/-- Worked example of R82. -/
theorem test_h1_hit : (after s1 (.feed 0xAA)).map (see 1) = some (2, false, 0xAA) := by decide
/-- Worked example of R83: the second `55` is a miss, not a new first header byte. -/
theorem test_h1_miss : (after s1 (.feed 0x55)).map (see 0) = some (0, false, 0x55) := by decide
/-- V-A2: the address `22` is not compared with `11`. -/
theorem test_addr : (after s2 (.feed 0x22)).map (see 2) = some (3, false, 0x22) := by decide
/-- Worked example of R90. -/
theorem test_len_ok : (after s3 (.feed 0x0A)).map (see 3) = some (4, false, 0x0A) := by decide
/-- Worked example of R91: cell 3 keeps its previous value. -/
theorem test_len_over : (after s3 (.feed 0x7A)).map (see 3) = some (0, false, 0x07) := by decide
/-- V-L4: `FF` is a large length, not a negative one (R92). -/
theorem test_len_over_unsigned : (after s3 (.feed 0xFF)).map (see 3) = some (0, false, 0x07) := by decide
/-- The command byte of `KNOCK` (V-L1). -/
theorem test_acc_store : (after s4 (.feed 0x2C)).map (see 4) = some (5, false, 0x2C) := by decide
/-- Worked example of R105. -/
theorem test_acc_last_ok : (after s5 (.feed 0x3C)).map (see 5) = some (0, true, 0x3C) := by decide
/-- V-P3: the smallest instance writes its last cell, `BUF_SIZE − 1`. -/
theorem test_acc_last_ok_smallest : (after t5 (.feed 0x3C)).map (see 5) = some (0, true, 0x3C) := by decide
/-- Worked example of R106: the byte is stored all the same. -/
theorem test_acc_last_bad : (after s5 (.feed 0x3D)).map (see 5) = some (0, false, 0x3D) := by decide
/-- V-R1: a candidate in progress is dropped, its bytes stay (R150 (a)); the byte presented is lost (R151). -/
theorem test_reset : (after s5 (.edge true true 0x3C)).map (see 4) = some (0, false, 0x2C) := by decide
/-- Worked example of R115; the pulse of `frame_ready` lasts until the next edge. -/
theorem test_read : (after done (.read 4)).map (fun t => (t.rdData, see 4 t)) = some (0x2C, 0, true, 0x2C) := by decide
/-- R116. -/
theorem test_idle : (after done .idle).map (see 5) = some (0, false, 0x3C) := by decide
/-- R101 (a): the sum is 1082. -/
theorem test_checksum_wraps : checksum [0x55, 0xAA, 0x11, 0x03, 0x2A, 0xFF, 0xFF, 0xFF] = 0x3A := by decide
/-- The construction of `BOX` in 95_test_vectors.md: the sum is `20F`. -/
theorem test_checksum_box :
    checksum [0x55, 0xAA, 0x11, 0x0A, 0x2A, 0x64, 0x00, 0x32, 0x00, 0x14, 0x00, 0x1E, 0x00, 0x03, 0x00] = 0x0F := by
  decide
/-- `KNOCK` of 30_encoding.md R74. -/
theorem test_knock : frameOf 0x11 0x2C [] = [0x55, 0xAA, 0x11, 0x00, 0x2C, 0x3C] := by decide

/-- The next step runs the row's operation, from reset. -/
theorem test_fetch_word_0x55 : operationOf (State.reset.withFetchWord 8 0x55)
    (nextStimulus (State.reset.withFetchWord 8 0x55)) = .feedH0Hit := by decide
theorem test_fetch_word_0xAA : operationOf (State.reset.withFetchWord 8 0xAA)
    (nextStimulus (State.reset.withFetchWord 8 0xAA)) = .feedH1Hit := by decide

/-! ### Witnesses: the states keep the invariant -/

theorem valid_dflt : dflt.Valid := ⟨by decide, by decide, by decide⟩
theorem valid_tiny : tiny.Valid := ⟨by decide, by decide, by decide⟩
theorem s1_inv : s1.Inv := ⟨valid_dflt, by decide, by decide, by decide, by decide, by decide, by decide⟩
theorem s2_inv : s2.Inv := ⟨valid_dflt, by decide, by decide, by decide, by decide, by decide, by decide⟩
theorem s3_inv : s3.Inv := ⟨valid_dflt, by decide, by decide, by decide, by decide, by decide, by decide⟩
theorem s4_inv : s4.Inv := ⟨valid_dflt, by decide, by decide, by decide, by decide, by decide, by decide⟩
theorem s5_inv : s5.Inv := ⟨valid_dflt, by decide, by decide, by decide, by decide, by decide, by decide⟩
theorem t2_inv : t2.Inv := ⟨valid_tiny, by decide, by decide, by decide, by decide, by decide, by decide⟩
theorem t3_inv : t3.Inv := ⟨valid_tiny, by decide, by decide, by decide, by decide, by decide, by decide⟩
theorem t5_inv : t5.Inv := ⟨valid_tiny, by decide, by decide, by decide, by decide, by decide, by decide⟩
theorem done_inv : done.Inv := ⟨valid_dflt, by decide, by decide, by decide, by decide, by decide, by decide⟩
theorem done_ready : done.ReadyInv := ⟨by decide, by decide, by decide, by decide, by decide, by decide⟩
theorem s5_ready : s5.ReadyInv := ⟨by decide, by decide, by decide, by decide, by decide, by decide⟩
theorem reset_inv (p : Params) (h : p.Valid) : (State.resetOf p).Inv :=
  ⟨h, .nil, (fun _ hc => nomatch hc), .inl (Nat.zero_le _), (fun hi => nomatch hi), (fun hi => nomatch hi), (fun _ ha => nomatch ha)⟩

/-! ### Witnesses: the hypotheses of each obligation, at the edges of its clauses -/

theorem witness_O3 :
    (WellFormed tiny (.feedLenOk 0) = true ∧ rowGuard ⟨1, 3, 0, 0⟩ (.feedLenOk 0) = true) ∧
    (WellFormed tiny (.feedLenOver 1) = true ∧ rowGuard ⟨1, 3, 0, 0⟩ (.feedLenOver 1) = true) ∧
    (WellFormed dflt (.feedH0Miss 0xAA) = true ∧ rowGuard ⟨122, 0, 0, 0⟩ (.feedH0Miss 0xAA) = true) ∧
    (WellFormed dflt (.feedH1Miss 0x55) = true ∧ rowGuard ⟨122, 1, 0, 0⟩ (.feedH1Miss 0x55) = true) ∧
    (WellFormed dflt (.feedAccStore 0) = true ∧ rowGuard ⟨122, 4, 0, 0⟩ (.feedAccStore 0) = true) ∧
    (WellFormed ⟨255, 260⟩ (.feedAccLastOk 0x44) = true ∧
      rowGuard ⟨255, 259, 0xFE, 0x44⟩ (.feedAccLastOk 0x44) = true) ∧
    (WellFormed ⟨255, 260⟩ (.feedAccLastBad 0x45) = true ∧
      rowGuard ⟨255, 259, 0xFE, 0x44⟩ (.feedAccLastBad 0x45) = true) := by decide
theorem witness_O6 : State.reset.inputs = [] ∧
    (State.reset.setInputs [.feed 0x55]).inputs = .feed 0x55 :: [] := by decide
theorem witness_O7 : State.reset.idx = 0 ∧ 0 < State.reset.params.bufSize := by decide
theorem witness_O8 : State.reset.idx = 0 ∧ (0xAA : Byte) ≠ 0x55 := by decide
theorem witness_O9 : s1.idx = 1 ∧ 1 < s1.params.bufSize := by decide
theorem witness_O10 : s1.idx = 1 ∧ (0x55 : Byte) ≠ 0xAA := by decide
theorem witness_O11 : s2.idx = 2 ∧ 2 < s2.params.bufSize := by decide
theorem witness_O12 : t3.idx = 3 ∧ (0x00 : Byte).toNat < t3.params.lenLimit ∧ 3 < t3.params.bufSize ∧
    s3.idx = 3 ∧ (0x79 : Byte).toNat < s3.params.lenLimit ∧ 3 < s3.params.bufSize := by decide
theorem witness_O13 : s3.idx = 3 ∧ s3.params.lenLimit ≤ (0x7A : Byte).toNat := by decide
theorem witness_O14 : 4 ≤ s4.idx ∧ s4.idx ≠ (readCell s4 3).toNat + 5 ∧ s4.idx < s4.params.bufSize ∧
    s4.idx ≤ (readCell s4 3).toNat + 5 := by decide
theorem witness_O15 : 4 ≤ t5.idx ∧ t5.idx = (readCell t5 3).toNat + 5 ∧ 0x3C = checksum (cells t5 t5.idx) ∧
    t5.idx < t5.params.bufSize := by decide
theorem witness_O16 : 4 ≤ t5.idx ∧ t5.idx = (readCell t5 3).toNat + 5 ∧ 0x3D ≠ checksum (cells t5 t5.idx) ∧
    t5.idx < t5.params.bufSize := by decide
theorem witness_O18 : 127 < done.params.bufSize ∧ done.params.bufSize ≤ 128 := by decide
theorem witness_O20 : 5 < done.params.bufSize ∧ ∃ t u, exec (.read 5) done = .next t ∧ exec (.read 5) t = .next u :=
  ⟨by decide, _, _, rfl, rfl⟩
theorem witness_O21 : s1.Inv ∧ s3.Inv ∧ s5.Inv ∧
    silentEvent (operationOf s1 (.feed 0x55)) = some .eHdr1Miss ∧
    silentEvent (operationOf s3 (.feed 0x7A)) = some .eLenOver ∧
    silentEvent (operationOf s5 (.feed 0x3D)) = some .eCksumBad :=
  ⟨s1_inv, s3_inv, s5_inv, by decide, by decide, by decide⟩
theorem witness_O22 : (mk ⟨1, 0⟩ 0 []).params.bufSize ≤ 0 ∧ (mk ⟨1, 1⟩ 0 []).params.bufSize ≤ 1 ∧
    (mk ⟨1, 2⟩ 0 []).params.bufSize ≤ 2 ∧ (mk ⟨1, 3⟩ 0 []).params.bufSize ≤ 3 ∧
    (mk ⟨1, 5⟩ 5 []).params.bufSize ≤ (mk ⟨1, 5⟩ 5 []).idx := by decide
theorem witness_O23 : s5.Inv ∧ t5.Inv ∧ done.Inv := ⟨s5_inv, t5_inv, done_inv⟩
theorem witness_O24 : dflt.Valid ∧ tiny.Valid := ⟨valid_dflt, valid_tiny⟩

/-- An invariant does not look at the pending inputs. -/
theorem inv_setInputs {s : State} (h : s.Inv) (xs : List Stimulus) : (s.setInputs xs).Inv :=
  ⟨h.params, h.bufWf, h.bufWithin, h.bounds, h.header0, h.header1, h.written⟩

theorem witness_O25 : (s5.setInputs [.feed 0x3C]).Inv ∧ (∃ t, step (s5.setInputs [.feed 0x3C]) = .next t) ∧
    (s4.setInputs [.feed 0x2C]).Inv ∧ ∃ t, step (s4.setInputs [.feed 0x2C]) = .next t :=
  ⟨inv_setInputs s5_inv _, ⟨_, rfl⟩, inv_setInputs s4_inv _, _, rfl⟩
theorem witness_O26 : (s5.setInputs [.feed 0x3C]).Inv ∧ (s5.setInputs [.feed 0x3C]).ReadyInv ∧
    (∃ t, step (s5.setInputs [.feed 0x3C]) = .next t ∧ t.frameReady = true) ∧
    (done.setInputs [.read 4]).Inv ∧ (done.setInputs [.read 4]).ReadyInv ∧
    ∃ t, step (done.setInputs [.read 4]) = .next t ∧ t.frameReady = true :=
  ⟨inv_setInputs s5_inv _, ⟨s5_ready.1, s5_ready.2, s5_ready.3, s5_ready.4, s5_ready.5, s5_ready.6⟩, ⟨_, rfl, rfl⟩,
   inv_setInputs done_inv _, ⟨done_ready.1, done_ready.2, done_ready.3, done_ready.4, done_ready.5, done_ready.6⟩, _, rfl, rfl⟩
theorem s5_tracks : Tracks [0x00, 0x55, 0xAA, 0x11, 0x00, 0x2C] s5 := ⟨by decide, by decide⟩
theorem witness_O27 : (s5.setInputs [.feed 0x3C]).Inv ∧
    Tracks [0x00, 0x55, 0xAA, 0x11, 0x00, 0x2C] (s5.setInputs [.feed 0x3C]) ∧
    ∃ t, step (s5.setInputs [.feed 0x3C]) = .next t := ⟨inv_setInputs s5_inv _, s5_tracks, _, rfl⟩
theorem witness_O28 : s5.Inv ∧ Tracks [0x00, 0x55, 0xAA, 0x11, 0x00, 0x2C] s5 ∧ 4 ≤ s5.idx ∧
    s5.idx = (readCell s5 3).toNat + 5 ∧ (∃ t, step (s5.setInputs [.feed 0x3C]) = .next t) ∧
    ∃ t, step (s5.setInputs [.feed 0x3D]) = .next t :=
  ⟨s5_inv, s5_tracks, by decide, by decide, ⟨_, rfl⟩, _, rfl⟩
theorem witness_O29 : ∃ t, step (s3.setInputs [.feed 0x0A]) = .next t ∧ readCell t 3 ≠ readCell s3 3 :=
  ⟨_, rfl, by decide⟩
theorem witness_O30 : (∃ t, step (s5.setInputs [.idle]) = .next t ∧ (nextStimulus (s5.setInputs [.idle])).fed = []) ∧
    ∃ t, step (s5.setInputs [.feed 0x3D]) = .next t ∧ (nextStimulus (s5.setInputs [.feed 0x3D])).fed = [0x3D] :=
  ⟨⟨_, rfl, rfl⟩, _, rfl, rfl⟩
theorem witness_O31 : (∃ t, step (s4.setInputs [.feed 0x2C]) = .next t) ∧ (s4.setInputs [.feed 0x2C]).Inv :=
  ⟨⟨_, rfl⟩, inv_setInputs s4_inv _⟩
theorem witness_O32 : (s5.setInputs [.feed 0x3C]).Inv ∧ (∃ t, step (s5.setInputs [.feed 0x3C]) = .next t) ∧
    s5.params.lenLimit + 5 ≤ 127 := ⟨inv_setInputs s5_inv _, ⟨_, rfl⟩, by decide⟩
theorem witness_O33 : (∃ t, step (s5.setInputs [.feed 0x3C]) = .next t ∧ t.frameReady = true) ∧
    (∃ t, step (done.setInputs [.read 4]) = .next t ∧ t.frameReady = true) ∧
    ∃ t, step (done.setInputs [.idle]) = .next t ∧ t.frameReady = false :=
  ⟨⟨_, rfl, rfl⟩, ⟨_, rfl, rfl⟩, _, rfl, rfl⟩
theorem witness_O34 : ∃ t, step (s5.setInputs [.feed 0x3C, .idle]) = .next t ∧ t.inputs = [.idle] := ⟨_, rfl, rfl⟩
theorem witness_O36 : t5.Inv ∧ 4 ≤ t5.idx ∧ t5.idx = t5.params.lenLimit + 4 := ⟨t5_inv, by decide, by decide⟩
theorem witness_O37 : s3.params.Valid ∧ s3.idx = 3 ∧ t3.params.Valid ∧ t3.idx = 3 :=
  ⟨valid_dflt, by decide, valid_tiny, by decide⟩
theorem witness_O38 : 4 ≤ s5.idx ∧ s5.idx = (readCell s5 3).toNat + 5 := by decide
theorem witness_O39 : [(0x55 : Byte), 0xAA].Perm [0xAA, 0x55] ∧ (7 : Nat) < 8 := by decide
theorem witness_O40 : AccHolds 0x3C (s5.setInputs [.feed 0x3C]) ∧ (∃ t, step (s5.setInputs [.feed 0x3C]) = .next t) ∧
    4 ≤ s5.idx ∧ s5.idx = (readCell s5 3).toNat + 5 := ⟨fun _ => by decide, ⟨_, rfl⟩, by decide, by decide⟩
theorem knock_wf : WellFormedFrame [0x55, 0xAA, 0x11, 0x00, 0x2C, 0x3C] :=
  ⟨by decide, by decide, by decide, by decide, by decide⟩
theorem one_wf : WellFormedFrame [0x55, 0xAA, 0x11, 0x01, 0x2C, 0xFF, 0x3C] :=
  ⟨by decide, by decide, by decide, by decide, by decide⟩
theorem witness_O41 : (List.replicate 255 (0xFF : Byte)).length < 256 ∧
    WellFormedFrame [0x55, 0xAA, 0x11, 0x00, 0x2C, 0x3C] := ⟨by rw [List.length_replicate]; decide, knock_wf⟩
theorem witness_O42 : (State.resetOf tiny).Inv ∧ (State.resetOf tiny).idx = 0 ∧
    WellFormedFrame [0x55, 0xAA, 0x11, 0x00, 0x2C, 0x3C] ∧ [0x55, 0xAA, 0x11, 0x00, 0x2C, 0x3C].length < tiny.lenLimit + 6 ∧
    WellFormedFrame [0x55, 0xAA, 0x11, 0x01, 0x2C, 0xFF, 0x3C] ∧
    tiny.lenLimit + 6 ≤ [0x55, 0xAA, 0x11, 0x01, 0x2C, 0xFF, 0x3C].length :=
  ⟨reset_inv _ valid_tiny, rfl, knock_wf, by decide, one_wf, by decide⟩
theorem witness_O43 : State.reset.Inv ∧ State.reset.idx = 0 ∧
    WellFormedFrame [0x55, 0xAA, 0x11, 0x01, 0x2C, 0xFF, 0x3C] ∧
    [0x55, 0xAA, 0x11, 0x01, 0x2C, 0xFF, 0x3C].length < State.reset.params.lenLimit + 6 ∧
    (4 ≤ 6 ∧ 6 < [0x55, 0xAA, 0x11, 0x01, 0x2C, 0xFF, 0x3C].length) ∧ (7 : Nat) < 8 :=
  ⟨reset_inv _ valid_dflt, rfl, one_wf, by decide, by decide, by decide⟩
theorem witness_O44 : State.reset.idx = 0 ∧ (0x55 : Byte) ∉ [0x00, 0x13, 0xAA, 0xFF, 0x54, 0x56] := by decide
theorem witness_O45 : State.reset.Inv ∧ State.reset.idx = 0 ∧ ¬ [(0x55 : Byte), 0xAA] <:+: [0x55, 0x00, 0xAA, 0x55] :=
  ⟨reset_inv _ valid_dflt, rfl, by decide⟩
theorem witness_O46 : State.reset.Inv ∧ State.reset.idx = 0 ∧ WellFormedFrame [0x55, 0xAA, 0x11, 0x00, 0x2C, 0x3C] ∧
    0x55 ∉ [0x55, 0xAA, 0x11, 0x00, 0x2C, 0x3C].drop 2 :=
  ⟨reset_inv _ valid_dflt, rfl, knock_wf, by decide⟩
theorem witness_O47 : s4.Inv ∧ 4 ≤ s4.idx ∧ [(0x2C : Byte)].length < remaining s4 ∧
    [(0x2C : Byte), 0x3C].length = remaining s4 := ⟨s4_inv, by decide, by decide, by decide⟩
theorem witness_O48 : t2.Inv ∧ 2 ≤ t2.idx ∧ [(0x11 : Byte), 0x00, 0x2C, 0x3C].length = t2.params.lenLimit + 3 :=
  ⟨t2_inv, by decide, by decide⟩
theorem witness_O49 : ∃ es t, runInputs s4 [.idle, .feed 0x2C, .read 4, .feed 0x3C] = some (es, t) := ⟨_, _, rfl⟩
theorem witness_O50 : SameCandidate s3 (mk dflt 3 [(0, 0x55), (1, 0xAA), (2, 0x11), (3, 0x08)]) ∧
    (∃ es t, feedBytes s3 [0x00] = some (es, t)) ∧
    ∃ es t, feedBytes (mk dflt 3 [(0, 0x55), (1, 0xAA), (2, 0x11), (3, 0x08)]) [0x00] = some (es, t) :=
  ⟨⟨rfl, rfl, rfl, by decide⟩, ⟨_, _, rfl⟩, _, _, rfl⟩
theorem witness_O51 : done.idx = 0 ∧ readCell done 0 = 0x55 ∧ readCell done 1 = 0xAA ∧
    (∃ t, feedBytes done [0x55, 0xAA] = some ([⟨.feedH0Hit, false⟩, ⟨.feedH1Hit, false⟩], t)) ∧
    (∀ e ∈ [(⟨.feedH0Hit, false⟩ : Event), ⟨.feedH1Hit, false⟩], ∀ b, e.op ≠ .feedAddr b) ∧
    [(0x55 : Byte), 0xAA].length ≤ 2 :=
  ⟨rfl, by decide, by decide, ⟨_, rfl⟩, by simp, by decide⟩
theorem witness_O52 : ∃ es t, runInputs s4 [.feed 0x2C, .idle] = some (es, t) := ⟨_, _, rfl⟩

def knock : List Byte := [0x55, 0xAA, 0x11, 0x00, 0x2C, 0x3C]
theorem done_held : FrameHeld (some knock) done := fun _ hf => by
  cases hf; exact ⟨knock_wf, by decide, by decide, by decide⟩
theorem held_none (s : State) : FrameHeld none s := fun _ hf => nomatch hf
/-- The frame is taken up at the completing step, and kept over the two header hits. -/
theorem witness_O53 : (s5.setInputs [.feed 0x3C]).Inv ∧ FrameHeld none (s5.setInputs [.feed 0x3C]) ∧
    (∃ t, step (s5.setInputs [.feed 0x3C]) = .next t ∧ heldUntilAddress none (.feedAccLastOk 0x3C) t = some knock) ∧
    (done.setInputs [.feed 0x55]).Inv ∧ FrameHeld (some knock) (done.setInputs [.feed 0x55]) ∧
    ∃ t, step (done.setInputs [.feed 0x55]) = .next t ∧ heldUntilAddress (some knock) .feedH0Hit t = some knock :=
  ⟨inv_setInputs s5_inv _, held_none _, ⟨_, rfl, by decide⟩, inv_setInputs done_inv _, done_held, _, rfl, rfl⟩
/-- The last cell of the frame, `N + 5`, read at the last moment, after both header bytes of the next frame. -/
theorem witness_O54 : done.Inv ∧ FrameHeld (some knock) done ∧
    ReaderKeepsDuties heldUntilAddress (some knock) done [.feed 0x55, .feed 0xAA, .read 5] :=
  ⟨done_inv, done_held, nofun, fun _ h1 => by
    cases h1; exact ⟨nofun, fun _ h2 => by
      cases h2; exact ⟨fun _ ha => by cases ha; decide, fun _ _ => trivial⟩⟩⟩
/-- The last cell of the frame, read after an idle edge, before anything more is fed. -/
theorem witness_O55 : done.Inv ∧ FrameHeld (some knock) done ∧
    ReaderKeepsDuties heldUntilFeed (some knock) done [.idle, .read 5] ∧
    [.idle, .read 5] = [.idle] ++ Stimulus.read 5 :: [] :=
  ⟨done_inv, done_held,
   ⟨nofun, fun _ h1 => by cases h1; exact ⟨fun _ ha => by cases ha; decide, fun _ _ => trivial⟩⟩, rfl⟩
theorem witness_O56 : 127 < s5.params.bufSize ∧ ¬ MayPresent none s5 (.read 127) :=
  ⟨by decide, fun h => absurd (h 127 rfl).1 (by decide)⟩
/-- Duty (c) at its edge: cell `N + 6` is not the reader's to read. -/
theorem test_duty_bound : MayPresent (some knock) done (.read 5) ∧ ¬ MayPresent (some knock) done (.read 6) :=
  ⟨fun _ ha => by cases ha; decide, fun h => absurd (h 6 rfl).2 (by decide)⟩

end Sys2Proof.Tests
end

section
/-! The rules of header detection (40_header_detection.md): what the shared operations `stored` and `passOver` leave
unchanged, when a fed byte is passed over or taken as the address, and what the two operations then do. -/

namespace Sys2Proof.Machine

/-! ### The frames of the shared operations -/

theorem stored_sameCellsBut (s : State) (a : Nat) (b : Byte) (i : Nat) (r : Bool) :
    SameCellsBut a s (stored s a b i r) :=
  fun _ h => readCell_stored_other s a b i r h

theorem stored_sameElsewhere (s : State) (a : Nat) (b : Byte) (i : Nat) (r : Bool) :
    SameElsewhere s (stored s a b i r) :=
  ⟨rfl, rfl, rfl, rfl⟩

@[simp] theorem passOver_idx (s : State) : (passOver s).idx = s.idx := rfl
@[simp] theorem passOver_buf (s : State) : (passOver s).buf = s.buf := rfl
@[simp] theorem passOver_frameReady (s : State) : (passOver s).frameReady = false := rfl

/-- Every cell is as before between two states with one buffer. -/
theorem sameCells_of_buf_eq {s t : State} (h : t.buf = s.buf) : SameCells s t :=
  fun a => congrArg (Memory.read · a) h

theorem passOver_sameElsewhere (s : State) : SameElsewhere s (passOver s) := ⟨rfl, rfl, rfl, rfl⟩

/-! ### When the operations are selected (30_encoding.md R67) -/

theorem operationOf_feed_h0Miss {s : State} {b : Byte} (hi : s.idx = 0) (hb : b ≠ 0x55) :
    operationOf s (.feed b) = .feedH0Miss b := by
  rw [operationOf_feed, if_pos hi, if_neg hb]

theorem operationOf_feed_addr {s : State} (b : Byte) (hi : s.idx = 2) :
    operationOf s (.feed b) = .feedAddr b := by
  simp [operationOf_feed, hi]

/-! ### What the operations do -/

theorem exec_feedH0Miss (b : Byte) (s : State) : exec (.feedH0Miss b) s = .next (passOver s) := rfl

theorem exec_feedAddr_of_lt {s : State} (b : Byte) (hr : 2 < s.params.bufSize) :
    exec (.feedAddr b) s = .next (stored s 2 b 3 false) :=
  takeByte_of_lt s 2 b 3 false hr

/-! ### The obligations -/

/-- Settles O8: the row of R67 at `idx = 0` selects the miss, and the miss passes the byte over. -/
theorem feedH0MissChangesNothing : Obligations.FeedH0MissChangesNothing := by
  intro s b hi hb
  have hidx : (passOver s).idx = 0 := by rw [passOver_idx, hi]
  exact ⟨operationOf_feed_h0Miss hi hb, passOver s, exec_feedH0Miss b s, hidx, passOver_frameReady s,
    passOver_buf s, sameCells_of_buf_eq (passOver_buf s), passOver_sameElsewhere s⟩

/-- Settles O11: at `idx = 2` the decode does not look at the byte, and the store at cell 2 changes that cell alone. -/
theorem feedAddrStoresAnyByte : Obligations.FeedAddrStoresAnyByte := by
  intro s b hi hr
  exact ⟨operationOf_feed_addr b hi, stored s 2 b 3 false, exec_feedAddr_of_lt b hr, stored_idx s 2 b 3 false,
    stored_frameReady s 2 b 3 false, readCell_stored_same s 2 b 3 false, stored_sameCellsBut s 2 b 3 false,
    stored_sameElsewhere s 2 b 3 false⟩

end Sys2Proof.Machine
end

section
/-! The rules of the checksum (42_content_checksum.md): the 8-bit accumulation it equals, and the verdict the block
takes from it at the completing step. -/

namespace Sys2Proof.Machine

/-! ### The checksum as an accumulation (R100) -/

/-- The start value is general so that the induction on the bytes goes through. -/
theorem foldl_add_eq_add_checksum (bs : List Byte) (acc : Byte) :
    bs.foldl (fun acc b => acc + b) acc = acc + checksum bs := by
  induction bs generalizing acc with
  | nil => simp
  | cons b bs ih => rw [List.foldl_cons, ih, checksum_cons, BitVec.add_assoc]

theorem checksum_eq_foldl (bs : List Byte) : checksum bs = bs.foldl (fun acc b => acc + b) 0 := by
  rw [foldl_add_eq_add_checksum]
  exact (BitVec.zero_add _).symm

/-! ### The verdict at the completing step (30_encoding.md R67) -/

theorem operationOf_feed_completing {s : State} (b : Byte) (hi : 4 ≤ s.idx)
    (hn : s.idx = (contentLength s).toNat + 5) :
    operationOf s (.feed b) = if b = checksum (candidate s) then .feedAccLastOk b else .feedAccLastBad b := by
  rw [operationOf_feed, if_neg (by omega), if_neg (by omega), if_neg (by omega), if_neg (by omega), if_pos hn]

theorem operationOf_feed_accLastOk_iff {s : State} (b : Byte) (hi : 4 ≤ s.idx)
    (hn : s.idx = (contentLength s).toNat + 5) :
    operationOf s (.feed b) = .feedAccLastOk b ↔ b = checksum (candidate s) := by
  rw [operationOf_feed_completing b hi hn]
  split
  · exact iff_of_true rfl ‹_›
  · exact iff_of_false nofun ‹_›

/-! ### The obligation -/

/-- Settles O38: the 8-bit accumulation by induction on the bytes with the register's start value general, and the
completing test by the row of R67 at `idx = buf[3] + 5`. -/
theorem checksumIsSumMod256 : Obligations.ChecksumIsSumMod256 :=
  ⟨checksum_toNat, checksum_eq_foldl, checksum_nil, fun s b hi hn =>
    ⟨operationOf_feed_accLastOk_iff b hi hn, (cells_length s s.idx).trans hn⟩⟩

end Sys2Proof.Machine
end

section
/-! The decoder and the encoder (30_encoding.md R67): a fed byte is read as an operation exactly when the operation is
encoded by that byte, is well formed, and its row's condition on the state holds. -/

namespace Sys2Proof.Machine

/-! ### From the byte to the operation -/

/-- Every branch of the decoder has collected exactly the condition of its row. -/
theorem decodeFeed_row (p : Params) (idx : Nat) (len sum b : Byte) :
    encode (decodeFeed ⟨p.lenLimit, idx, len, sum⟩ b) = .feed b ∧
    WellFormed p (decodeFeed ⟨p.lenLimit, idx, len, sum⟩ b) = true ∧
    rowGuard ⟨p.lenLimit, idx, len, sum⟩ (decodeFeed ⟨p.lenLimit, idx, len, sum⟩ b) = true := by
  unfold decodeFeed checksumPosition Config.contentStart
  split_ifs with h0 hb h1 hb h2 h3 hb hn hb
  · exact ⟨congrArg Stimulus.feed hb.symm, rfl, beq_iff_eq.2 h0⟩
  · exact ⟨rfl, bne_iff_ne.2 hb, beq_iff_eq.2 h0⟩
  · exact ⟨congrArg Stimulus.feed hb.symm, rfl, beq_iff_eq.2 h1⟩
  · exact ⟨rfl, bne_iff_ne.2 hb, beq_iff_eq.2 h1⟩
  · exact ⟨rfl, rfl, beq_iff_eq.2 h2⟩
  · exact ⟨rfl, decide_eq_true hb, beq_iff_eq.2 h3⟩
  · exact ⟨rfl, decide_eq_true (Nat.le_of_not_lt hb), beq_iff_eq.2 h3⟩
  all_goals
    have h4 : 4 ≤ idx := by simp only at h0 h1 h2 h3; omega
    refine ⟨rfl, rfl, ?_⟩
    simp_all [rowGuard]

/-! ### From the operation to the byte -/

/-- At the indices of the content the decoder compares with the checksum's position alone. -/
theorem decodeFeed_content {c : DecodeContext} (b : Byte) (h4 : 4 ≤ c.idx) :
    decodeFeed c b = if c.idx = c.len.toNat + 5 then
      if b = c.sum then .feedAccLastOk b else .feedAccLastBad b else .feedAccStore b := by
  unfold decodeFeed
  rw [if_neg (by omega), if_neg (by omega), if_neg (by omega), if_neg (by omega)]
  rfl

/-- The row's condition leads the decoder into the branch of its operation. -/
theorem decode_encode {p : Params} {idx : Nat} {len sum : Byte} {i : Instr} (hw : WellFormed p i = true)
    (hg : rowGuard ⟨p.lenLimit, idx, len, sum⟩ i = true) : decode ⟨p.lenLimit, idx, len, sum⟩ (encode i) = i := by
  cases i with
  | feedH0Hit | feedH1Hit | feedAddr b =>
    obtain rfl := beq_iff_eq.1 hg
    rfl
  | feedH0Miss b | feedH1Miss b =>
    obtain rfl := beq_iff_eq.1 hg
    exact if_neg (bne_iff_ne.1 hw)
  | feedLenOk b =>
    obtain rfl := beq_iff_eq.1 hg
    exact if_pos (of_decide_eq_true hw)
  | feedLenOver b =>
    obtain rfl := beq_iff_eq.1 hg
    exact if_neg (Nat.not_lt_of_le (of_decide_eq_true hw))
  | feedAccStore b | feedAccLastOk b | feedAccLastBad b =>
    simp only [rowGuard, Bool.and_eq_true, decide_eq_true_eq, beq_iff_eq, bne_iff_ne, ne_eq] at hg
    refine (decodeFeed_content b (by simp only; omega)).trans ?_
    simp [hg]
  | reset | read a | idle => rfl

/-! ### The rows in a state -/

/-- No state and byte meet the conditions of two rows. -/
theorem FeedRow.operationOf_eq {s : State} {b : Byte} {i : Instr} (h : FeedRow s b i) :
    operationOf s (.feed b) = i := by
  rw [operationOf_feed]
  cases h with
  | h0Hit hi hb => rw [if_pos hi, if_pos hb]
  | h0Miss hi hb => rw [if_pos hi, if_neg hb]
  | h1Hit hi hb => rw [if_neg (by omega), if_pos hi, if_pos hb]
  | h1Miss hi hb => rw [if_neg (by omega), if_pos hi, if_neg hb]
  | addr hi => rw [if_neg (by omega), if_neg (by omega), if_pos hi]
  | lenOk hi hb => rw [if_neg (by omega), if_neg (by omega), if_neg (by omega), if_pos hi, if_pos hb]
  | lenOver hi hb =>
    rw [if_neg (by omega), if_neg (by omega), if_neg (by omega), if_pos hi, if_neg (Nat.not_lt_of_le hb)]
  | accStore hi hn =>
    rw [if_neg (by omega), if_neg (by omega), if_neg (by omega), if_neg (by omega), if_neg hn]
  | accLastOk hi hn hb =>
    rw [if_neg (by omega), if_neg (by omega), if_neg (by omega), if_neg (by omega), if_pos hn, if_pos hb]
  | accLastBad hi hn hb =>
    rw [if_neg (by omega), if_neg (by omega), if_neg (by omega), if_neg (by omega), if_pos hn, if_neg hb]

theorem operationOf_feed_iff {s : State} {b : Byte} {i : Instr} :
    operationOf s (.feed b) = i ↔ FeedRow s b i :=
  ⟨fun h => h ▸ feed_row s b, FeedRow.operationOf_eq⟩

/-- The rows as claims state them are the rows as the inversion of a step states them. -/
theorem feedRow_iff_rowApplies {s : State} {b : Byte} {i : Instr} : FeedRow s b i ↔ RowApplies s b i := by
  constructor
  · intro h
    cases h with
    | h0Hit hi hb | h1Hit hi hb => exact ⟨hi, hb⟩
    | h0Miss hi hb | h1Miss hi hb | lenOk hi hb | lenOver hi hb => exact ⟨rfl, hi, hb⟩
    | addr hi => exact ⟨rfl, hi⟩
    | accStore hi hn => exact ⟨rfl, hi, hn⟩
    | accLastOk hi hn hb | accLastBad hi hn hb => exact ⟨rfl, hi, hn, hb⟩
  · intro h
    cases i with
    | feedH0Hit => exact .h0Hit h.1 h.2
    | feedH1Hit => exact .h1Hit h.1 h.2
    | feedH0Miss x => obtain ⟨rfl, hi, hb⟩ := h; exact .h0Miss hi hb
    | feedH1Miss x => obtain ⟨rfl, hi, hb⟩ := h; exact .h1Miss hi hb
    | feedAddr x => obtain ⟨rfl, hi⟩ := h; exact .addr hi
    | feedLenOk x => obtain ⟨rfl, hi, hb⟩ := h; exact .lenOk hi hb
    | feedLenOver x => obtain ⟨rfl, hi, hb⟩ := h; exact .lenOver hi hb
    | feedAccStore x => obtain ⟨rfl, hi, hn⟩ := h; exact .accStore hi hn
    | feedAccLastOk x => obtain ⟨rfl, hi, hn, hb⟩ := h; exact .accLastOk hi hn hb
    | feedAccLastBad x => obtain ⟨rfl, hi, hn, hb⟩ := h; exact .accLastBad hi hn hb
    | reset | read a | idle => exact h.elim

/-! ### The obligations -/

/-- Settles O3: the row's condition leads the decoder into the branch of its operation. -/
theorem decodeAfterEncodeGivesOperationBack : Obligations.DecodeAfterEncodeGivesOperationBack :=
  fun _ _ _ _ _ hw hg => decode_encode hw hg

/-- Settles O1: the rows are the ways an operation is selected, so the operation selected is the only one whose row
applies. -/
theorem fedByteSelectsExactlyOneRow : Obligations.FedByteSelectsExactlyOneRow := by
  intro s b
  have key (i : Instr) : operationOf s (.feed b) = i ↔ RowApplies s b i :=
    operationOf_feed_iff.trans feedRow_iff_rowApplies
  exact ⟨key, ⟨operationOf s (.feed b), (key _).1 rfl, fun i hi => ((key i).2 hi).symm⟩, rfl, rfl, fun _ => rfl⟩

/-- Settles O4: a fed byte by the branches of the decoder, the port rows by their ports. -/
theorem decodedOperationIsWellFormed : Obligations.DecodedOperationIsWellFormed := by
  intro p idx len sum x b
  refine ⟨?_, ?_, (decodeFeed_row p idx len sum b).1⟩ <;>
    match x with
    | .edge true _ _ => rfl
    | .edge false false _ => rfl
    | .read _ => rfl
    | .edge false true c => simp only [decode, decodeFeed_row p idx len sum c]

/-- Settles O2: each port combination is one clause of the decoder. -/
theorem portsSelectResetIdleRead : Obligations.PortsSelectResetIdleRead :=
  fun _ _ _ _ => ⟨rfl, rfl, rfl, rfl⟩

/-- Settles O5: the words are decoded one by one. -/
theorem writtenOutWordsDecode : Obligations.WrittenOutWordsDecode :=
  ⟨rfl, rfl, rfl, rfl, rfl, rfl, rfl, rfl⟩

end Sys2Proof.Machine
end

section
/-! The operations one by one: when each is selected, what it does, what it leaves unchanged, and that it completes. -/

namespace Sys2Proof.Machine

/-! ### The effect of the shared operations, with its frame -/

theorem takeByte_effect (s : State) (a : Nat) (b : Byte) (i : Nat) (r : Bool) (h : a < s.params.bufSize) :
    ∃ t, takeByte s a b i r = .next t ∧ t.idx = i ∧ t.frameReady = r ∧ readCell t a = b ∧
      SameCellsBut a s t ∧ SameElsewhere s t :=
  ⟨stored s a b i r, takeByte_of_lt s a b i r h, rfl, rfl, readCell_stored_same s a b i r,
    stored_sameCellsBut s a b i r, stored_sameElsewhere s a b i r⟩

theorem takeByte_of_ge (s : State) (a : Nat) (b : Byte) (i : Nat) (r : Bool) (h : s.params.bufSize ≤ a) :
    takeByte s a b i r = .fault .writeOutsideBuffer :=
  if_neg (Nat.not_lt_of_le h)

@[simp] theorem resynchronize_idx (s : State) : (resynchronize s).idx = 0 := rfl
@[simp] theorem resynchronize_buf (s : State) : (resynchronize s).buf = s.buf := rfl
@[simp] theorem resynchronize_frameReady (s : State) : (resynchronize s).frameReady = false := rfl

theorem resynchronize_sameElsewhere (s : State) : SameElsewhere s (resynchronize s) := ⟨rfl, rfl, rfl, rfl⟩

/-- The whole effect of a candidate dropped without a store, and of a reset (60_exceptions.md R138). -/
theorem resynchronize_effect (s : State) :
    (resynchronize s).idx = 0 ∧ (resynchronize s).frameReady = false ∧ (resynchronize s).buf = s.buf ∧
      SameCells s (resynchronize s) ∧ SameElsewhere s (resynchronize s) :=
  ⟨rfl, rfl, rfl, sameCells_of_buf_eq rfl, resynchronize_sameElsewhere s⟩

theorem exec_read_of_lt {s : State} {a : Nat} (h : a < s.params.bufSize) :
    exec (.read a) s = .next (s.setRdData (readCell s a)) := if_pos h

theorem exec_read_of_ge {s : State} {a : Nat} (h : s.params.bufSize ≤ a) :
    exec (.read a) s = .next ((s.setDraws (s.draws + 1)).setRdData (Config.freeByte s.draws)) :=
  if_neg (Nat.not_lt_of_le h)

/-! ### The input a step takes -/

theorem step_of_inputs_nil {s : State} (h : s.inputs = []) : step s = exec .idle s := by
  have hf : afterFetch s = s := by rw [afterFetch, h, List.tail_nil, ← h, State.setInputs_self]
  rw [step, hf, nextStimulus, h]
  rfl

theorem step_of_inputs_cons {s : State} {x : Stimulus} {rest : List Stimulus} (h : s.inputs = x :: rest) :
    step s = exec (operationOf s x) (s.setInputs rest) := by
  rw [step, afterFetch, nextStimulus, h]
  rfl

/-! ### The obligations -/

/-- Settles O6: the two forms the pending inputs can have. -/
theorem stepRunsSelectedOperation : Obligations.StepRunsSelectedOperation :=
  fun _ => ⟨step_of_inputs_nil, fun _ _ h => step_of_inputs_cons h⟩

/-- Settles O7: the row at `idx = 0`, and the store at cell 0. -/
theorem feedH0HitStoresByteAndAdvances : Obligations.FeedH0HitStoresByteAndAdvances :=
  fun s hi hr => ⟨FeedRow.operationOf_eq (.h0Hit hi rfl), takeByte_effect s 0 0x55 1 false hr⟩

/-- Settles O9: the row at `idx = 1`, and the store at cell 1. -/
theorem feedH1HitStoresByteAndAdvances : Obligations.FeedH1HitStoresByteAndAdvances :=
  fun s hi hr => ⟨FeedRow.operationOf_eq (.h1Hit hi rfl), takeByte_effect s 1 0xAA 2 false hr⟩

/-- Settles O10: the row for every byte but `0xAA` at `idx = 1` resynchronizes. -/
theorem feedH1MissResynchronizes : Obligations.FeedH1MissResynchronizes :=
  fun s _ hi hb => ⟨FeedRow.operationOf_eq (.h1Miss hi hb), resynchronize s, rfl, resynchronize_effect s⟩

/-- Settles O12: the store at cell 3, from which `remaining` follows. -/
theorem feedLenOkStoresLength : Obligations.FeedLenOkStoresLength := by
  intro s b hi hb hr
  obtain ⟨t, ht, htidx, hready, hcell, hframe⟩ := takeByte_effect s 3 b 4 false hr
  have hrem : remaining t = b.toNat + 2 := by
    rw [remaining, contentLength, hcell, htidx]
    omega
  exact ⟨FeedRow.operationOf_eq (.lenOk hi hb), t, ht, htidx, hready, hcell, hrem, hframe⟩

/-- Settles O13: a length byte not below the limit resynchronizes. -/
theorem feedLenOverResynchronizes : Obligations.FeedLenOverResynchronizes :=
  fun s _ hi hb => ⟨FeedRow.operationOf_eq (.lenOver hi hb), resynchronize s, rfl, resynchronize_effect s⟩

/-- Settles O14: the store at `idx`, which leaves cell 3 and so the completion position as it was. -/
theorem feedAccStoreStoresPositionally : Obligations.FeedAccStoreStoresPositionally := by
  intro s b hi hn hr
  obtain ⟨t, ht, htidx, hready, hcell, hother, helse⟩ := takeByte_effect s s.idx b (s.idx + 1) false hr
  have hlen : readCell t 3 = readCell s 3 := hother 3 (by omega)
  refine ⟨FeedRow.operationOf_eq (.accStore hi hn), t, ht, htidx, hready, hcell, hother, helse, fun hle => ?_⟩
  rw [hlen, htidx]
  omega

/-- Settles O15: the completing row with a matching byte, and the store at `idx`. -/
theorem feedAccLastOkReportsFrame : Obligations.FeedAccLastOkReportsFrame :=
  fun s b hi hn hb hr => ⟨FeedRow.operationOf_eq (.accLastOk hi hn hb), takeByte_effect s s.idx b 0 true hr⟩

/-- Settles O16: the completing row with any other byte, and the same store. -/
theorem feedAccLastBadDropsFrame : Obligations.FeedAccLastBadDropsFrame :=
  fun s b hi hn hb hr => ⟨FeedRow.operationOf_eq (.accLastBad hi hn hb), takeByte_effect s s.idx b 0 false hr⟩

/-- Settles O17: a reset does what a dropped candidate does. -/
theorem resetZeroesIndexOnly : Obligations.ResetZeroesIndexOnly :=
  fun s => ⟨resynchronize s, rfl, resynchronize_effect s⟩

/-- Settles O18: the two cases of the address. -/
theorem readReturnsCellAndChangesNothing : Obligations.ReadReturnsCellAndChangesNothing := by
  intro s a
  rcases Nat.lt_or_ge a s.params.bufSize with h | h
  · exact ⟨_, exec_read_of_lt h, rfl, rfl, sameCells_of_buf_eq rfl, rfl, rfl, rfl, fun _ => ⟨rfl, rfl⟩,
      fun h' => absurd h (Nat.not_lt_of_le h')⟩
  · exact ⟨_, exec_read_of_ge h, rfl, rfl, sameCells_of_buf_eq rfl, rfl, rfl, rfl,
      fun h' => absurd h' (Nat.not_lt_of_le h), fun _ => ⟨rfl, rfl⟩⟩

/-- Settles O19: `IDLE` passes over the edge. -/
theorem idleClearsReadyOnly : Obligations.IdleClearsReadyOnly :=
  fun s => ⟨passOver s, rfl, rfl, rfl, rfl, sameCells_of_buf_eq rfl, passOver_sameElsewhere s⟩

/-- Settles O20: the first read leaves the buffer, so the second reads the same cell of the same buffer. -/
theorem repeatedReadReturnsSameByte : Obligations.RepeatedReadReturnsSameByte := by
  intro s t u a ha ht hu
  rw [exec_read_of_lt ha] at ht
  cases ht
  rw [exec_read_of_lt (by exact ha)] at hu
  cases hu
  exact ⟨rfl, rfl, rfl⟩

/-- Settles O22: a store answers the fault wherever its cell does not exist. -/
theorem storeOutsideBufferFaults : Obligations.StoreOutsideBufferFaults :=
  fun s b => ⟨takeByte_of_ge s 0 0x55 1 false, takeByte_of_ge s 1 0xAA 2 false, takeByte_of_ge s 2 b 3 false,
    takeByte_of_ge s 3 b 4 false, fun h => ⟨takeByte_of_ge s s.idx b (s.idx + 1) false h,
      takeByte_of_ge s s.idx b 0 true h, takeByte_of_ge s s.idx b 0 false h⟩⟩

/-- Settles O35: the registers of the state after reset, field by field. -/
theorem resetStateRegisters : Obligations.ResetStateRegisters :=
  fun _ => ⟨rfl, rfl, rfl, rfl, Memory.read_nil, rfl⟩

end Sys2Proof.Machine
end

section
/-! What every step does to the fields of the state, read off the ways a step can end (`StepCase`): the four ways it
moves the index and the buffer, and the results it gives. -/

namespace Sys2Proof.Machine

/-! ### The four ways a step moves the block -/

/-- A step leaves the index and the buffer (`IDLE`, `READ`), drops the candidate without a store, takes a byte at the
index, or takes the last byte of the candidate there (10_state.md R23, R25). -/
inductive StepMove (s : State) (x : Stimulus) (t : State) : Prop
  | keep (hx : x.fed = []) (hi : t.idx = s.idx) (hb : t.buf = s.buf)
  | drop (hi : t.idx = 0) (hb : t.buf = s.buf)
  | take (b : Byte) (hx : x.fed = [b]) (hi : t.idx = s.idx + 1) (hb : t.buf = s.buf.write s.idx b)
  | finish (b : Byte) (hx : x.fed = [b]) (hi : t.idx = 0) (hb : t.buf = s.buf.write s.idx b) (h4 : 4 ≤ s.idx)

theorem StepCase.move {s t : State} {x : Stimulus} {op : Instr} (h : StepCase s x op t) : StepMove s x t := by
  cases h with
  | h0Hit hi hr | h1Hit hi hr | addr b hi hr | lenOk b hi hb hr =>
    exact .take _ rfl (by rw [hi]; rfl) (by rw [hi]; rfl)
  | h0Miss b hi hb => exact .drop hi rfl
  | h1Miss b hi hb | lenOver b hi hb | reset v b => exact .drop rfl rfl
  | accStore b hi hn hr => exact .take b rfl rfl rfl
  | accLastOk b hi hn hb hr | accLastBad b hi hn hb hr => exact .finish b rfl rfl rfl hi
  | readCell a ha | readFree a ha | idle b => exact .keep rfl rfl rfl

theorem StepCase.params {s t : State} {x : Stimulus} {op : Instr} (h : StepCase s x op t) : t.params = s.params := by
  cases h <;> rfl

theorem StepCase.inputs {s t : State} {x : Stimulus} {op : Instr} (h : StepCase s x op t) :
    t.inputs = s.inputs.tail := by
  cases h <;> rfl

/-- The result of an edge is its operation's; a `READ` belongs to no edge (10_state.md R26; log entry 6). -/
theorem StepCase.frameReady_iff {s t : State} {x : Stimulus} {op : Instr} (h : StepCase s x op t) :
    t.frameReady = true ↔ (∃ b, op = .feedAccLastOk b) ∨ (∃ a, x = .read a) ∧ s.frameReady = true := by
  cases h <;> simp [Stimulus.feed]

/-! ### The cells -/

/-- `sameCells_of_buf_eq` in the form a rewrite takes. -/
theorem readCell_of_buf_eq {s t : State} (h : t.buf = s.buf) (a : Nat) : readCell t a = readCell s a :=
  sameCells_of_buf_eq h a

theorem readCell_of_buf_write {s t : State} {k : Nat} {b : Byte} (h : t.buf = s.buf.write k b) (a : Nat) :
    readCell t a = if a = k then b else readCell s a := by
  rw [readCell, h]
  split
  · subst_vars; exact Memory.read_write_same ..
  · exact Memory.read_write_other _ b ‹_›

theorem StepMove.sameCellsBut {s t : State} {x : Stimulus} (h : StepMove s x t) : SameCellsBut s.idx s t := by
  intro a ha
  cases h with
  | keep hx hi hb | drop hi hb => exact readCell_of_buf_eq hb a
  | take b hx hi hb | finish b hx hi hb h4 => rw [readCell_of_buf_write hb, if_neg ha]

theorem StepMove.idx_cases {s t : State} {x : Stimulus} (h : StepMove s x t) :
    t.idx = s.idx ∨ t.idx = s.idx + 1 ∨ t.idx = 0 := by
  cases h with
  | keep hx hi hb => exact .inl hi
  | drop hi hb | finish b hx hi hb h4 => exact .inr (.inr hi)
  | take b hx hi hb => exact .inr (.inl hi)

/-- A step that takes a byte at `idx` leaves the candidate longer by that byte. -/
theorem candidate_of_take {s t : State} {b : Byte} (hi : t.idx = s.idx + 1) (hb : t.buf = s.buf.write s.idx b) :
    candidate t = candidate s ++ [b] := by
  rw [candidate, hi, cells_succ, readCell_of_buf_write hb, if_pos rfl]
  congr 1
  exact cells_congr fun a ha => by rw [readCell_of_buf_write hb, if_neg (by omega)]

theorem candidate_of_keep {s t : State} (hi : t.idx = s.idx) (hb : t.buf = s.buf) : candidate t = candidate s := by
  rw [candidate, hi]
  exact cells_congr fun a _ => readCell_of_buf_eq hb a

theorem candidate_of_idx_zero {t : State} (hi : t.idx = 0) : candidate t = [] := by rw [candidate, hi, cells_zero]

/-! ### The obligations -/

/-- Settles O34: none of the ways a step ends touches the constants, and each has taken one input. -/
theorem instanceConstantsNeverChange : Obligations.InstanceConstantsNeverChange :=
  fun _ _ h => ⟨(step_cases h).params, (step_cases h).inputs⟩

/-- Settles O33: the result of each way a step ends. -/
theorem readyExactlyAfterAcceptedChecksum : Obligations.ReadyExactlyAfterAcceptedChecksum :=
  fun _ _ h => (step_cases h).frameReady_iff

/-- Settles O30: a store is made at `idx` and of the byte fed. -/
theorem stepWritesOnlyIndexedCell : Obligations.StepWritesOnlyIndexedCell := by
  intro s t h
  have hm := (step_cases h).move
  refine ⟨hm.sameCellsBut, ?_⟩
  cases hm with
  | keep hx hi hb | drop hi hb => exact ⟨fun _ => hb, fun _ _ => .inl hb⟩
  | take b hx hi hb | finish b hx hi hb h4 =>
    rw [hx]
    refine ⟨nofun, fun c hc => .inr ?_⟩
    rw [readCell_of_buf_write hb, if_pos rfl]
    exact (List.cons.inj hc).1

/-- Settles O29: the other stores are made at another cell, `idx` being another. -/
theorem lengthCellWrittenOnlyByLenOk : Obligations.LengthCellWrittenOnlyByLenOk := by
  intro s t h hne
  have hc := step_cases h
  have h3 : s.idx = 3 := by
    by_contra hi
    exact hne (hc.move.sameCellsBut 3 (Ne.symm hi))
  refine ⟨h3, ?_⟩
  generalize nextStimulus s = x at hc ⊢
  generalize operationOf s x = op at hc ⊢
  cases hc with
  | lenOk b hi hb hr => exact ⟨b, rfl, readCell_stored_same ..⟩
  | h0Hit hi | h0Miss b hi | h1Hit hi | h1Miss b hi | addr b hi => omega
  | accStore b hi | accLastOk b hi | accLastBad b hi => omega
  | lenOver | reset | readCell | readFree | idle => exact absurd rfl hne

end Sys2Proof.Machine
end

section
/-! The invariant of the block (10_state.md R29) and of `frame_ready` (43_frame_output.md R117): what follows from them
in one state, and that every step keeps them. -/

namespace Sys2Proof.Machine

/-! ### Consequences in one state -/

theorem State.Inv.idx_le {s : State} (h : s.Inv) : s.idx ≤ s.params.lenLimit + 4 := by
  have hone := h.params.one_le
  rcases h.bounds with h3 | ⟨hlen, _, hle⟩ <;> omega

/-- The index names a cell of the buffer (41_length_accumulation.md R93). -/
theorem State.Inv.idx_lt_bufSize {s : State} (h : s.Inv) : s.idx < s.params.bufSize := by
  have hroom := h.params.room
  have hle := h.idx_le
  omega

theorem State.Inv.length_lt {s : State} (h : s.Inv) (h4 : 4 ≤ s.idx) :
    (contentLength s).toNat < s.params.lenLimit := by
  rcases h.bounds with h3 | ⟨hlen, _, _⟩
  · omega
  · exact hlen

theorem State.Inv.idx_le_position {s : State} (h : s.Inv) (h4 : 4 ≤ s.idx) :
    s.idx ≤ (contentLength s).toNat + 5 := by
  rcases h.bounds with h3 | ⟨_, _, hle⟩
  · omega
  · exact hle

/-- The invariant speaks of the constants, the index and the buffer alone. -/
theorem State.Inv.of_eq {s t : State} (h : s.Inv) (hp : t.params = s.params) (hi : t.idx = s.idx)
    (hb : t.buf = s.buf) : t.Inv := by
  have hcell := readCell_of_buf_eq hb
  refine ⟨hp ▸ h.params, hb ▸ h.bufWf, by rw [hb, hp]; exact h.bufWithin, ?_, ?_, ?_, ?_⟩
  · rw [contentLength, hcell, hp, hi]; exact h.bounds
  · rw [hcell, hi]; exact h.header0
  · rw [hcell, hi]; exact h.header1
  · rw [hb, hi]; exact h.written

theorem State.Inv.afterFetch {s : State} (h : s.Inv) : (afterFetch s).Inv := h.of_eq rfl rfl rfl

/-- With no candidate in progress the invariant is about the constants and the form of the buffer. -/
theorem State.inv_of_idx_zero {s : State} (hi : s.idx = 0) (hp : s.params.Valid) (hw : s.buf.wf)
    (hin : s.buf.Within s.params.bufSize) : s.Inv :=
  ⟨hp, hw, hin, .inl (by omega), fun h => by omega, fun h => by omega, fun a ha => by omega⟩

theorem State.readyInv_of_not_ready {s : State} (h : s.frameReady = false) : s.ReadyInv := by
  constructor <;> exact fun hr => absurd hr (by simp [h])

/-! ### The operations keep the invariant -/

theorem State.Inv.resynchronize {s : State} (h : s.Inv) : (resynchronize s).Inv :=
  State.inv_of_idx_zero rfl h.params h.bufWf h.bufWithin

theorem State.Inv.stored_zero {s : State} (h : s.Inv) (b : Byte) (r : Bool) : (stored s s.idx b 0 r).Inv :=
  State.inv_of_idx_zero rfl h.params (Memory.wf_write h.bufWf _ _)
    (Memory.within_write h.bufWithin h.idx_lt_bufSize _)

/-- A byte taken at the index keeps the invariant when it is the header byte due there, or an accepted length, or lies
before the completion position. -/
theorem State.Inv.stored_succ {s : State} {k : Nat} (h : s.Inv) (hk : s.idx = k) (b : Byte) (r : Bool)
    (h0 : k = 0 → b = 0x55) (h1 : k = 1 → b = 0xAA) (h3 : k = 3 → b.toNat < s.params.lenLimit)
    (h4 : 4 ≤ k → k ≠ (contentLength s).toNat + 5) : (stored s k b (k + 1) r).Inv where
  params := h.params
  bufWf := Memory.wf_write h.bufWf _ _
  bufWithin := Memory.within_write h.bufWithin (hk ▸ h.idx_lt_bufSize) _
  bounds := by
    rw [contentLength, readCell_stored, stored_idx, stored_params]
    rcases Nat.lt_trichotomy k 3 with hlt | heq | hgt
    · exact .inl (by omega)
    · rw [if_pos heq.symm]
      exact .inr ⟨h3 heq, by omega, by omega⟩
    · have hne := h4 hgt
      have hlt := h.length_lt (by omega)
      have hle := h.idx_le_position (by omega)
      rw [if_neg (by omega)]
      exact .inr ⟨hlt, by omega, by rw [contentLength] at hne hle; omega⟩
  header0 _ := by
    rw [readCell_stored]
    split
    · exact h0 (Eq.symm ‹_›)
    · exact h.header0 (by omega)
  header1 hi := by
    rw [stored_idx] at hi
    rw [readCell_stored]
    split
    · exact h1 (Eq.symm ‹_›)
    · exact h.header1 (by omega)
  written a ha := by
    rw [stored_idx] at ha
    rw [stored_buf, Memory.lookup_write]
    split
    · exact Option.isSome_some
    · exact h.written a (by omega)

theorem StepCase.inv {s t : State} {x : Stimulus} {op : Instr} (hc : StepCase s x op t) (h : s.Inv) : t.Inv := by
  have hf := h.afterFetch
  cases hc with
  | h0Hit hi hr => exact hf.stored_succ hi 0x55 false (fun _ => rfl) nofun nofun nofun
  | h1Hit hi hr => exact hf.stored_succ hi 0xAA false nofun (fun _ => rfl) nofun nofun
  | addr b hi hr => exact hf.stored_succ hi b false nofun nofun nofun (by omega)
  | lenOk b hi hb hr => exact hf.stored_succ hi b false nofun nofun (fun _ => hb) (by omega)
  | accStore b hi hn hr =>
    exact hf.stored_succ (k := s.idx) rfl b false (by omega) (by omega) (by omega) (fun _ => hn)
  | accLastOk b hi hn hb hr | accLastBad b hi hn hb hr => exact hf.stored_zero b _
  | h1Miss b hi hb | lenOver b hi hb | reset v b => exact hf.resynchronize
  | h0Miss b hi hb | readCell a ha | readFree a ha | idle b => exact hf.of_eq rfl rfl rfl

/-- A matching checksum byte, stored behind the candidate, makes the buffer hold a whole frame
(43_frame_output.md R117). -/
theorem State.Inv.readyInv_stored {s : State} (h : s.Inv) {b : Byte} (h4 : 4 ≤ s.idx)
    (hn : s.idx = (contentLength s).toNat + 5) (hb : b = checksum (candidate s)) (r : Bool) :
    (stored s s.idx b 0 r).ReadyInv := by
  have hlen : contentLength (stored s s.idx b 0 r) = contentLength s :=
    readCell_stored_other s s.idx b 0 r (by omega)
  refine ⟨fun _ => rfl, fun _ => ?_, fun _ => ?_, fun _ => ?_, fun _ => ?_, fun _ a ha => ?_⟩
  · rw [readCell_stored_other _ _ _ _ _ (by omega)]
    exact h.header0 (by omega)
  · rw [readCell_stored_other _ _ _ _ _ (by omega)]
    exact h.header1 (by omega)
  · rw [hlen]
    exact h.length_lt h4
  · rw [hlen, ← hn, readCell_stored_same, hb]
    exact congrArg checksum (cells_congr fun a ha => (readCell_stored_other s s.idx _ 0 r (by omega)).symm)
  · rw [hlen] at ha
    rw [stored_buf, Memory.lookup_write]
    split
    · exact Option.isSome_some
    · exact h.written a (by omega)

/-- `READ` leaves everything the invariant of `frame_ready` speaks of. -/
theorem State.ReadyInv.of_eq {s t : State} (h : s.ReadyInv) (hp : t.params = s.params) (hi : t.idx = s.idx)
    (hb : t.buf = s.buf) (hr : t.frameReady = s.frameReady) : t.ReadyInv := by
  have hcell := readCell_of_buf_eq hb
  have hlen : contentLength t = contentLength s := hcell 3
  refine ⟨?_, ?_, ?_, ?_, ?_, ?_⟩
  · rw [hr, hi]; exact h.idle
  · rw [hr, hcell]; exact h.header0
  · rw [hr, hcell]; exact h.header1
  · rw [hr, hlen, hp]; exact h.length
  · rw [hr, hlen, hcell, cells_congr fun a _ => hcell a]; exact h.sum
  · rw [hr, hlen, hb]; exact h.written

theorem StepCase.readyInv {s t : State} {x : Stimulus} {op : Instr} (hc : StepCase s x op t) (h : s.Inv)
    (hr : s.ReadyInv) : t.ReadyInv := by
  cases hc with
  | accLastOk b hi hn hb _ =>
    have hf := h.afterFetch
    exact hf.readyInv_stored hi hn hb true
  | readCell a ha | readFree a ha => exact hr.of_eq rfl rfl rfl rfl
  | _ => exact State.readyInv_of_not_ready rfl

/-! ### Every step completes -/

/-- It is enough that the index names a cell: every store is made there. -/
theorem exists_step_of_idx_lt {s : State} (h : s.idx < s.params.bufSize) : ∃ t, step s = .next t := by
  cases hx : nextStimulus s with
  | read a =>
    rw [step, hx]
    rcases Nat.lt_or_ge a s.params.bufSize with ha | ha
    · exact ⟨_, exec_read_of_lt (s := afterFetch s) ha⟩
    · exact ⟨_, exec_read_of_ge (s := afterFetch s) ha⟩
  | edge rst valid b =>
    rw [step, hx]
    match rst, valid with
    | true, _ => exact ⟨_, rfl⟩
    | false, false => exact ⟨_, rfl⟩
    | false, true =>
      have row := feed_row s b
      change ∃ t, exec (operationOf s (.feed b)) (afterFetch s) = .next t
      generalize operationOf s (.feed b) = op at row ⊢
      cases row with
      | h0Hit hi | h1Hit hi | addr hi | lenOk hi => exact ⟨_, takeByte_of_lt (afterFetch s) _ _ _ _ (hi ▸ h)⟩
      | accStore | accLastOk | accLastBad => exact ⟨_, takeByte_of_lt (afterFetch s) _ _ _ _ h⟩
      | h0Miss | h1Miss | lenOver => exact ⟨_, rfl⟩

theorem State.Inv.exists_step {s : State} (h : s.Inv) (x : Stimulus) : ∃ t, step (s.setInputs [x]) = .next t :=
  exists_step_of_idx_lt (s := s.setInputs [x]) h.idx_lt_bufSize

theorem State.inv_resetOf {p : Params} (h : p.Valid) : (State.resetOf p).Inv :=
  State.inv_of_idx_zero rfl h .nil nofun

theorem defaultParams_valid : Config.defaultParams.Valid := ⟨by decide, by decide, by decide⟩

/-! ### The obligations -/

/-- Settles O25: each way a step ends keeps the invariant. -/
theorem stepKeepsInvariant : Obligations.StepKeepsInvariant :=
  fun _ _ h ht => (step_cases ht).inv h

/-- Settles O26: the result is true after a matching checksum byte alone, and a `READ` leaves it. -/
theorem stepKeepsReadyFrame : Obligations.StepKeepsReadyFrame :=
  fun _ _ h hr ht => (step_cases ht).readyInv h hr

/-- Settles O23: the invariant keeps the index inside the buffer. -/
theorem everyStepCompletes : Obligations.EveryStepCompletes :=
  fun _ h => exists_step_of_idx_lt h.idx_lt_bufSize

/-- Settles O24: after reset no candidate is in progress and nothing has been reported. -/
theorem resetStateKeepsInvariant : Obligations.ResetStateKeepsInvariant :=
  ⟨fun _ h => ⟨State.inv_resetOf h, State.readyInv_of_not_ready rfl⟩,
    State.inv_resetOf defaultParams_valid, State.readyInv_of_not_ready rfl⟩

/-- Settles O31: the four ways a step moves the index, and the bound the invariant puts on it after the step. -/
theorem indexStaysIncrementsOrZeroes : Obligations.IndexStaysIncrementsOrZeroes :=
  fun _ _ ht => ⟨(step_cases ht).move.idx_cases, fun h => (step_cases ht).params ▸ ((step_cases ht).inv h).idx_le⟩

/-- Settles O32: the only cell a step can write is at the index. -/
theorem cellsAboveLongestFrameNeverChange : Obligations.CellsAboveLongestFrameNeverChange := by
  intro s t h ht a ha
  have hle := h.idx_le
  exact (step_cases ht).move.sameCellsBut a (by omega)

/-- Settles O36: the index and the completion position are at most `LEN_LIMIT + 4`. -/
theorem indexFitsItsRegister : Obligations.IndexFitsItsRegister := by
  intro s h
  have hroom := h.params.room
  have hle := h.idx_le
  have hwidth : s.params.lenLimit + 5 ≤ 2 ^ s.params.idxWidth := Nat.le_pow_clog (by decide) _
  refine ⟨by omega, h.idx_lt_bufSize, fun h4 => ?_⟩
  have hlen := h.length_lt h4
  rw [contentLength] at hlen
  exact ⟨by omega, by omega, by omega⟩

end Sys2Proof.Machine
end

section
/-! The candidate against the bytes fed (10_state.md R29, Inv-C), the running accumulator (42_content_checksum.md R102),
and the silent events (60_exceptions.md R131 to R133). -/

namespace Sys2Proof.Machine

/-! ### A step on one fed byte -/

theorem step_feed (s : State) (b : Byte) :
    step (s.setInputs [.feed b]) = exec (operationOf s (.feed b)) (s.setInputs []) := rfl

theorem step_of_feedRow {s : State} {b : Byte} {op : Instr} (h : FeedRow s b op) :
    step (s.setInputs [.feed b]) = exec op (s.setInputs []) := by
  rw [step_feed, h.operationOf_eq]

/-- At the completion position the byte is stored, the candidate ends, and the result is the comparison of the byte with
the checksum (42_content_checksum.md R104). -/
theorem step_completing {s t : State} {b : Byte} (h4 : 4 ≤ s.idx) (hn : s.idx = (contentLength s).toNat + 5)
    (h : step (s.setInputs [.feed b]) = .next t) :
    t = stored (s.setInputs []) s.idx b 0 (decide (b = checksum (candidate s))) := by
  by_cases hb : b = checksum (candidate s)
  · rw [step_of_feedRow (.accLastOk h4 hn hb)] at h
    rw [decide_eq_true hb]
    exact (takeByte_next _ _ _ _ _ h).2
  · rw [step_of_feedRow (.accLastBad h4 hn hb)] at h
    rw [decide_eq_false hb]
    exact (takeByte_next _ _ _ _ _ h).2

/-! ### The history of fed bytes -/

theorem tracks_iff_suffix {h : List Byte} {s : State} : Tracks h s ↔ candidate s <:+ h := by
  have hlen : (candidate s).length = s.idx := cells_length s s.idx
  rw [List.suffix_iff_eq_drop, hlen]
  refine ⟨fun ht => ht.2, fun hd => ⟨?_, hd⟩⟩
  have := congrArg List.length hd
  rw [hlen, List.length_drop] at this
  omega

theorem suffix_append_singleton {xs ys : List Byte} (b : Byte) (h : xs <:+ ys) : xs ++ [b] <:+ ys ++ [b] := by
  obtain ⟨zs, rfl⟩ := h
  exact ⟨zs, (List.append_assoc zs xs [b]).symm⟩

theorem StepMove.tracks {h : List Byte} {s t : State} {x : Stimulus} (hm : StepMove s x t) (ht : Tracks h s) :
    Tracks (h ++ x.fed) t := by
  rw [tracks_iff_suffix] at ht ⊢
  cases hm with
  | keep hx hi hb => rw [hx, List.append_nil, candidate_of_keep hi hb]; exact ht
  | drop hi hb | finish b hx hi hb h4 => rw [candidate_of_idx_zero hi]; exact List.nil_suffix
  | take b hx hi hb => rw [hx, candidate_of_take hi hb]; exact suffix_append_singleton b ht

/-! ### The running accumulator -/

theorem AccHolds.of_idx_zero (acc : Byte) {t : State} (hi : t.idx = 0) : AccHolds acc t :=
  fun h => by omega

theorem AccHolds.of_take {acc b : Byte} {s t : State} (ha : AccHolds acc s) (h1 : 1 ≤ s.idx) (hi : t.idx = s.idx + 1)
    (hb : t.buf = s.buf.write s.idx b) : AccHolds (acc + b) t := by
  intro _
  rw [candidate_of_take hi hb, checksum_append, checksum_singleton, ← ha h1]

theorem AccHolds.of_keep {acc : Byte} {s t : State} (ha : AccHolds acc s) (hi : t.idx = s.idx) (hb : t.buf = s.buf) :
    AccHolds acc t := by
  intro h1
  rw [candidate_of_keep hi hb]
  exact ha (hi ▸ h1)

theorem StepCase.accHolds {acc : Byte} {s t : State} {x : Stimulus} {op : Instr} (h : StepCase s x op t)
    (ha : AccHolds acc s) : AccHolds (accNext acc op) t := by
  cases h with
  | h0Hit hi hr =>
    intro _
    rw [candidate_of_take (s := s) (b := 0x55) (by rw [hi]; rfl) (by rw [hi]; rfl), candidate_of_idx_zero hi]
    exact (checksum_singleton 0x55).symm
  | h1Hit hi hr | addr b hi hr | lenOk b hi hb hr =>
    exact ha.of_take (by omega) (by rw [hi]; rfl) (by rw [hi]; rfl)
  | accStore b hi hn hr => exact ha.of_take (by omega) rfl rfl
  | h0Miss b hi hb => exact .of_idx_zero _ hi
  | h1Miss | lenOver | accLastOk | accLastBad | reset => exact .of_idx_zero _ rfl
  | readCell | readFree | idle => exact ha.of_keep rfl rfl

theorem operationOf_feed_accLastBad_iff {s : State} (b : Byte) (hi : 4 ≤ s.idx)
    (hn : s.idx = (contentLength s).toNat + 5) :
    operationOf s (.feed b) = .feedAccLastBad b ↔ b ≠ checksum (candidate s) := by
  rw [operationOf_feed_completing b hi hn]
  split
  · exact iff_of_false nofun (not_not_intro ‹_›)
  · exact iff_of_true rfl ‹_›

/-! ### The silent events -/

/-- The cause of each silent event (60_exceptions.md R131, R132, R133). -/
def SilentCause (s : State) (b : Byte) : SilentEvent → Prop
  | .eHdr1Miss => s.idx = 1 ∧ b ≠ 0xAA
  | .eLenOver => s.idx = 3 ∧ s.params.lenLimit ≤ b.toNat
  | .eCksumBad => 4 ≤ s.idx ∧ s.idx = (contentLength s).toNat + 5 ∧ b ≠ checksum (candidate s)

theorem silentEvent_eq_some_iff (s : State) (b : Byte) (e : SilentEvent) :
    silentEvent (operationOf s (.feed b)) = some e ↔ SilentCause s b e := by
  constructor
  · have row := feed_row s b
    generalize operationOf s (.feed b) = op at row
    intro he
    cases row with
    | h1Miss hi hb | lenOver hi hb => cases he; exact ⟨hi, hb⟩
    | accLastBad hi hn hb => cases he; exact ⟨hi, hn, hb⟩
    | h0Hit | h0Miss | h1Hit | addr | lenOk | accStore | accLastOk => exact nomatch he
  · intro hc
    cases e with
    | eHdr1Miss => rw [FeedRow.operationOf_eq (.h1Miss hc.1 hc.2)]; rfl
    | eLenOver => rw [FeedRow.operationOf_eq (.lenOver hc.1 hc.2)]; rfl
    | eCksumBad =>
      obtain ⟨hi, hn, hb⟩ := hc
      rw [FeedRow.operationOf_eq (.accLastBad hi hn hb)]
      rfl

/-! ### The obligations -/

/-- Settles O27: a byte taken at the index is the last byte fed. -/
theorem candidateIsLastBytesFed : Obligations.CandidateIsLastBytesFed :=
  fun _ _ _ _ ht h => (step_cases h).move.tracks ht

/-- Settles O28: the completing byte is stored behind a candidate that is the end of the history. -/
theorem completedCandidateIsLastBytesFed : Obligations.CompletedCandidateIsLastBytesFed := by
  intro h s t b _ ht h4 hn hstep
  obtain rfl := step_completing h4 hn hstep
  have hcells : cells (stored (s.setInputs []) s.idx b 0 (decide (b = checksum (candidate s)))) (s.idx + 1)
      = candidate s ++ [b] := cells_stored_succ (s.setInputs []) s.idx b 0 _
  refine ⟨rfl, ?_, readCell_stored_other _ _ _ _ _ (by omega), ?_⟩
  · have hsuffix := List.suffix_iff_eq_drop.1 (suffix_append_singleton b (tracks_iff_suffix.1 ht))
    rw [← hcells, cells_length, hn, List.length_append, List.length_singleton] at hsuffix
    rw [hn]
    exact hsuffix
  · rw [stored_frameReady, decide_eq_true_eq, ht.2, hn]

/-- Settles O40: the accumulator grows with the candidate, so at the completing step it is the checksum compared. -/
theorem accumulatorEqualsChecksum : Obligations.AccumulatorEqualsChecksum := by
  refine ⟨fun _ _ _ ha h => (step_cases h).accHolds ha, fun acc s b ha h4 hn => ?_⟩
  rw [ha (by omega)]
  exact ⟨operationOf_feed_accLastOk_iff b h4 hn, operationOf_feed_accLastBad_iff b h4 hn⟩

/-- Settles O21: the causes are the conditions of the three rows, and two of the operations resynchronize, the third
stores. -/
theorem silentEventCausesAndEffects : Obligations.SilentEventCausesAndEffects := by
  intro s b hinv
  refine ⟨silentEvent_eq_some_iff s b .eHdr1Miss, silentEvent_eq_some_iff s b .eLenOver, ?_, fun e he => ?_⟩
  · refine (silentEvent_eq_some_iff s b .eCksumBad).trans (and_congr_right fun _ => and_congr_right fun hn => ?_)
    rw [candidate, show (readCell s 3).toNat + 5 = s.idx from hn.symm]
  · have hc := (silentEvent_eq_some_iff s b e).1 he
    cases e with
    | eHdr1Miss =>
      exact ⟨_, step_of_feedRow (.h1Miss hc.1 hc.2), rfl, rfl, rfl, rfl, rfl, rfl,
        fun _ => sameCells_of_buf_eq rfl, nofun⟩
    | eLenOver =>
      exact ⟨_, step_of_feedRow (.lenOver hc.1 hc.2), rfl, rfl, rfl, rfl, rfl, rfl,
        fun _ => sameCells_of_buf_eq rfl, nofun⟩
    | eCksumBad =>
      obtain ⟨hi, hn, hb⟩ := hc
      have hstep := (step_of_feedRow (.accLastBad hi hn hb)).trans
        (takeByte_of_lt (s.setInputs []) s.idx b 0 false hinv.idx_lt_bufSize)
      exact ⟨_, hstep, rfl, rfl, rfl, rfl, rfl, rfl, fun hne => absurd rfl hne,
        fun _ => ⟨readCell_stored_same .., stored_sameCellsBut (s.setInputs []) s.idx b 0 false⟩⟩

end Sys2Proof.Machine
end

section
/-! The laws of the checksum (42_content_checksum.md R101), the accepted lengths counted (41_length_accumulation.md R92),
and the shape of a frame (30_encoding.md R61, R74). -/

namespace Sys2Proof.Machine

/-! ### The laws of the checksum -/

theorem checksum_perm {xs ys : List Byte} (h : xs.Perm ys) : checksum xs = checksum ys :=
  congrArg (BitVec.ofNat 8) (h.map BitVec.toNat).sum_eq

theorem checksum_header_cons (bs : List Byte) : checksum (0x55 :: 0xAA :: bs) = 0xFF + checksum bs := by
  rw [checksum_cons, checksum_cons, ← BitVec.add_assoc]
  rfl

/-- The checksum is one-to-one in each byte summed. -/
theorem checksum_insert_inj {xs ys : List Byte} {a b : Byte}
    (h : checksum (xs ++ a :: ys) = checksum (xs ++ b :: ys)) : a = b := by
  simpa only [checksum_append, checksum_cons, BitVec.add_right_inj, BitVec.add_left_inj] using h

theorem xor_bit_ne (b : Byte) {k : Nat} (hk : k < 8) : b ^^^ (1#8 <<< k) ≠ b := by
  intro h
  have hbit := congrArg (BitVec.getLsbD · k) h
  simp [hk] at hbit

theorem checksum_shift_pair (xs ys zs : List Byte) (a b d : Byte) :
    checksum (xs ++ (a + d) :: ys ++ (b - d) :: zs) = checksum (xs ++ a :: ys ++ b :: zs) := by
  simp only [checksum_append, checksum_cons]
  ring

/-! ### Lengths below a limit -/

theorem length_filter_range_lt {n m : Nat} (h : n ≤ m) :
    ((List.range m).filter fun k => decide (k < n)).length = n := by
  obtain ⟨d, rfl⟩ := Nat.exists_eq_add_of_le h
  have hlow : (List.range n).filter (fun k => decide (k < n)) = List.range n :=
    List.filter_eq_self.2 fun k hk => decide_eq_true (List.mem_range.1 hk)
  have hhigh : ((List.range d).map (n + ·)).filter (fun k => decide (k < n)) = [] := by
    simp
  rw [List.range_add, List.filter_append, hlow, hhigh, List.append_nil, List.length_range]

theorem length_filter_range_ge {n m : Nat} (h : n ≤ m) :
    ((List.range m).filter fun k => decide (n ≤ k)).length = m - n := by
  have hsplit := List.length_eq_length_filter_add (l := List.range m) fun k => decide (k < n)
  simp only [length_filter_range_lt h, List.length_range, ← decide_not, Nat.not_lt] at hsplit
  omega

/-! ### The shape of a frame -/

/-- The bytes of a frame before the last: the header, an address, a length byte, and the bytes between the length and the
last (30_encoding.md R61). -/
def frameBody (addr len : Byte) (mid : List Byte) : List Byte := 0x55 :: 0xAA :: addr :: len :: mid

@[simp] theorem frameBody_length (addr len : Byte) (mid : List Byte) :
    (frameBody addr len mid).length = mid.length + 4 := rfl

/-- A well-formed frame has as many bytes as its length byte says, and the checksum of the others as its last. -/
theorem wellFormedFrame_body_append_iff {addr len last : Byte} {mid : List Byte} :
    WellFormedFrame (frameBody addr len mid ++ [last]) ↔
      mid.length = len.toNat + 1 ∧ last = checksum (frameBody addr len mid) := by
  have hlength : (frameBody addr len mid ++ [last]).length = mid.length + 5 := by simp
  have hlast : (frameBody addr len mid ++ [last])[mid.length + 4]? = some last :=
    List.getElem?_concat_length (l := frameBody addr len mid)
  have htake : (frameBody addr len mid ++ [last]).take (mid.length + 4) = frameBody addr len mid :=
    List.take_left (l₁ := frameBody addr len mid)
  constructor
  · rintro ⟨hlong, -, -, hlen, hsum⟩
    rw [hlength] at hlong hlen hsum
    refine ⟨?_, Option.some.inj (hlast.symm.trans (hsum.trans ?_))⟩
    · have : len.toNat = mid.length + 5 - 6 := Option.some.inj hlen
      omega
    · exact congrArg (fun bs => some (checksum bs)) htake
  · rintro ⟨hmid, hsum⟩
    refine ⟨by omega, rfl, rfl, ?_, ?_⟩
    · rw [hlength, hmid]
      exact congrArg some (by omega)
    · rw [hlength, show mid.length + 5 - 1 = mid.length + 4 from rfl, hlast, htake, hsum]

theorem WellFormedFrame.exists_body {F : List Byte} (h : WellFormedFrame F) :
    ∃ addr len mid last, F = frameBody addr len mid ++ [last] ∧ mid.length = len.toNat + 1 ∧
      last = checksum (frameBody addr len mid) := by
  obtain ⟨addr, len, mid, last, rfl⟩ : ∃ addr len mid last, F = frameBody addr len mid ++ [last] := by
    obtain ⟨hlong, h0, h1, -, -⟩ := h
    match F, hlong with
    | f0 :: f1 :: addr :: len :: f4 :: rest, _ =>
      obtain rfl : f0 = 0x55 := Option.some.inj h0
      obtain rfl : f1 = 0xAA := Option.some.inj h1
      obtain ⟨mid, last, hconcat⟩ := (List.eq_nil_or_concat' (f4 :: rest)).resolve_left nofun
      exact ⟨addr, len, mid, last, by rw [hconcat]; rfl⟩
  exact ⟨addr, len, mid, last, rfl, wellFormedFrame_body_append_iff.1 h⟩

theorem frameOf_eq (addr cmd : Byte) (content : List Byte) :
    frameOf addr cmd content = frameBody addr (BitVec.ofNat 8 content.length) (cmd :: content) ++
      [checksum (frameBody addr (BitVec.ofNat 8 content.length) (cmd :: content))] := rfl

/-! ### The obligations -/

/-- Settles O37: the rows at `idx = 3`, and the numbers below a limit counted. -/
theorem exactlyLenLimitLengthsAccepted : Obligations.ExactlyLenLimitLengthsAccepted := by
  intro s hp hi
  have hok (b : Byte) : operationOf s (.feed b) = .feedLenOk b ↔ b.toNat < s.params.lenLimit :=
    (operationOf_feed_iff.trans feedRow_iff_rowApplies).trans ⟨fun h => h.2.2, fun h => ⟨rfl, hi, h⟩⟩
  have hover (b : Byte) : operationOf s (.feed b) = .feedLenOver b ↔ s.params.lenLimit ≤ b.toNat :=
    (operationOf_feed_iff.trans feedRow_iff_rowApplies).trans ⟨fun h => h.2.2, fun h => ⟨rfl, hi, h⟩⟩
  have hle : s.params.lenLimit ≤ 256 := Nat.le_succ_of_le hp.le_255
  have htoNat {n : Nat} (hn : n ∈ List.range 256) : (BitVec.ofNat 8 n).toNat = n := by
    rw [BitVec.toNat_ofNat, Nat.mod_eq_of_lt (List.mem_range.1 hn)]
  refine ⟨hok, hover, ?_, ?_⟩
  · rw [List.filter_congr fun n hn => decide_eq_decide.2 ((hok _).trans (by rw [htoNat hn]))]
    exact length_filter_range_lt hle
  · rw [List.filter_congr fun n hn => decide_eq_decide.2 ((hover _).trans (by rw [htoNat hn]))]
    exact length_filter_range_ge hle

/-- Settles O39: permutation, header, the one-to-one dependence on each byte, and cancellation. -/
theorem checksumSensitivity : Obligations.ChecksumSensitivity :=
  ⟨fun _ _ => checksum_perm, checksum_header_cons, fun _ _ b _ hk h => xor_bit_ne b hk (checksum_insert_inj h),
    checksum_shift_pair⟩

/-- Settles O41: both directions through the bytes before the last. -/
theorem frameItemsAreTheWellFormedFrames : Obligations.FrameItemsAreTheWellFormedFrames := by
  constructor
  · intro addr cmd content hlt
    rw [frameOf_eq]
    have hlen : (BitVec.ofNat 8 content.length).toNat = content.length := by
      rw [BitVec.toNat_ofNat, Nat.mod_eq_of_lt hlt]
    refine ⟨wellFormedFrame_body_append_iff.2 ⟨by rw [hlen, List.length_cons], rfl⟩, by simp, ?_⟩
    rw [List.getLast?_concat, frameBody, checksum_header_cons]
    simp only [checksum_cons, ← BitVec.add_assoc]
  · intro F hF
    obtain ⟨addr, len, mid, last, rfl, hmid, rfl⟩ := hF.exists_body
    match mid, hmid with
    | cmd :: content, hmid =>
      have hcontent : content.length = len.toNat := Nat.succ.inj hmid
      refine ⟨addr, cmd, content, hcontent ▸ len.isLt, ?_⟩
      rw [frameOf_eq, hcontent, BitVec.ofNat_toNat, BitVec.setWidth_eq]

end Sys2Proof.Machine
end

section
/-! Streams of bytes that a candidate takes: what a run of stores leaves in the buffer, whole frames
(42_content_checksum.md R107, R108), and the return to `AwaitHeader0` (70_reset_and_hazards.md R163). -/

namespace Sys2Proof.Machine

/-! ### Runs by their first step -/

theorem runInputs_cons_of_next_some {s t u : State} {x : Stimulus} {xs : List Stimulus} {es : List Event}
    (h : step (s.setInputs [x]) = .next t) (hrun : runInputs t xs = some (es, u)) :
    runInputs s (x :: xs) = some (⟨operationOf s x, t.frameReady⟩ :: es, u) := by
  rw [runInputs_cons_of_next xs h, hrun]
  rfl

theorem feedBytes_cons_of_next {s t : State} {b : Byte} (bs : List Byte) (h : step (s.setInputs [.feed b]) = .next t) :
    feedBytes s (b :: bs) =
      (feedBytes t bs).map fun r => (⟨operationOf s (.feed b), t.frameReady⟩ :: r.1, r.2) :=
  runInputs_cons_of_next (bs.map .feed) h

theorem feedBytes_cons_some {s t u : State} {b : Byte} {bs : List Byte} {es : List Event}
    (h : step (s.setInputs [.feed b]) = .next t) (hrun : feedBytes t bs = some (es, u)) :
    feedBytes s (b :: bs) = some (⟨operationOf s (.feed b), t.frameReady⟩ :: es, u) :=
  runInputs_cons_of_next_some h hrun

theorem feedBytes_append_some {s t u : State} {xs ys : List Byte} {es fs : List Event}
    (hx : feedBytes s xs = some (es, t)) (hy : feedBytes t ys = some (fs, u)) :
    feedBytes s (xs ++ ys) = some (es ++ fs, u) := by
  rw [feedBytes_append_of_some ys hx, hy]
  rfl

/-- A fed byte, by the row of the decode table that applies. -/
theorem feedBytes_cons_of_row {s t u : State} {b : Byte} {bs : List Byte} {es : List Event} {op : Instr}
    (hrow : FeedRow s b op) (h : exec op (s.setInputs []) = .next t) (hrun : feedBytes t bs = some (es, u)) :
    feedBytes s (b :: bs) = some (⟨op, t.frameReady⟩ :: es, u) := by
  rw [feedBytes_cons_some ((step_of_feedRow hrow).trans h) hrun, hrow.operationOf_eq]

theorem feedBytes_singleton {s t : State} {b : Byte} {op : Instr} (hrow : FeedRow s b op)
    (h : exec op (s.setInputs []) = .next t) : feedBytes s [b] = some ([⟨op, t.frameReady⟩], t) :=
  feedBytes_cons_of_row hrow h rfl

theorem State.Inv.setInputs {s : State} (h : s.Inv) (xs : List Stimulus) : (s.setInputs xs).Inv :=
  h.of_eq rfl rfl rfl

/-! ### Bytes taken into consecutive cells -/

/-- From `s` to `t` the bytes `bs` went into the cells from `k` on, and every other cell is as before. -/
structure Placed (k : Nat) (bs : List Byte) (s t : State) : Prop where
  taken : ∀ j (hj : j < bs.length), readCell t (k + j) = bs[j]
  others : ∀ a, a < k ∨ k + bs.length ≤ a → readCell t a = readCell s a

theorem Placed.nil (k : Nat) (s : State) : Placed k [] s s := ⟨nofun, fun _ _ => rfl⟩

theorem Placed.of_buf_write {k : Nat} {b : Byte} {s t : State} (h : t.buf = s.buf.write k b) : Placed k [b] s t where
  taken j hj := by
    obtain rfl := Nat.lt_one_iff.1 hj
    exact (readCell_of_buf_write h k).trans (if_pos rfl)
  others a ha := by
    rw [List.length_singleton] at ha
    rw [readCell_of_buf_write h, if_neg (by omega)]

theorem Placed.append {k : Nat} {xs ys : List Byte} {s t u : State} (hx : Placed k xs s t)
    (hy : Placed (k + xs.length) ys t u) : Placed k (xs ++ ys) s u where
  taken j hj := by
    rcases Nat.lt_or_ge j xs.length with hlt | hge
    · rw [List.getElem_append_left hlt, hy.others _ (.inl (by omega)), hx.taken j hlt]
    · rw [List.length_append] at hj
      rw [List.getElem_append_right hge, ← hy.taken (j - xs.length) (by omega)]
      congr 1
      omega
  others a ha := by
    rw [List.length_append] at ha
    rw [hy.others a (by omega), hx.others a (by omega)]

/-- Behind the cells up to `k` stand the bytes placed. -/
theorem Placed.cells_eq {k : Nat} {bs : List Byte} {s t : State} (h : Placed k bs s t) :
    cells t (k + bs.length) = cells s k ++ bs := by
  apply List.ext_getElem (by simp)
  intro j hj hj'
  rw [cells_getElem]
  rcases Nat.lt_or_ge j k with hlt | hge
  · rw [List.getElem_append_left (by simpa using hlt), cells_getElem, h.others j (.inl hlt)]
  · have hlen : j - k < bs.length := by rw [cells_length] at hj; omega
    rw [List.getElem_append_right (by simpa using hge)]
    simp only [cells_length]
    rw [← h.taken (j - k) hlen, Nat.add_sub_cancel' hge]

/-! ### Runs in which the candidate takes every byte -/

/-- Feeding `bs` from `s` performs `es`, places every byte from the index on, and keeps the invariant. -/
structure Takes (s : State) (bs : List Byte) (es : List Event) (t : State) : Prop where
  run : feedBytes s bs = some (es, t)
  inv : t.Inv
  params : t.params = s.params
  placed : Placed s.idx bs s t

theorem Takes.nil {s : State} (h : s.Inv) : Takes s [] [] s := ⟨rfl, h, rfl, .nil _ s⟩

theorem Takes.append {s t u : State} {xs ys : List Byte} {es fs : List Event} (hx : Takes s xs es t)
    (hi : t.idx = s.idx + xs.length) (hy : Takes t ys fs u) : Takes s (xs ++ ys) (es ++ fs) u :=
  ⟨feedBytes_append_some hx.run hy.run, hy.inv, hy.params.trans hx.params, hx.placed.append (hi ▸ hy.placed)⟩

theorem Takes.candidate_eq {s t : State} {bs : List Byte} {es : List Event} (h : Takes s bs es t)
    (hi : t.idx = s.idx + bs.length) : candidate t = candidate s ++ bs := by
  rw [candidate, hi]
  exact h.placed.cells_eq

/-- A storing operation at the index takes its byte. -/
theorem Takes.of_row {s : State} {k : Nat} {b : Byte} {op : Instr} {i : Nat} {r : Bool} (h : s.Inv) (hk : s.idx = k)
    (hrow : FeedRow s b op) (hexec : exec op (s.setInputs []) = takeByte (s.setInputs []) k b i r) :
    Takes s [b] [⟨op, r⟩] (stored (s.setInputs []) k b i r) := by
  subst hk
  have hnext : exec op (s.setInputs []) = .next (stored (s.setInputs []) s.idx b i r) :=
    hexec.trans (takeByte_of_lt (s.setInputs []) _ _ _ _ h.idx_lt_bufSize)
  refine ⟨feedBytes_singleton hrow hnext, ?_, rfl, .of_buf_write rfl⟩
  exact (step_one_cases ((step_of_feedRow hrow).trans hnext)).inv (h.setInputs _)

/-- Any bytes before the completion position are stored (42_content_checksum.md R103). -/
theorem takes_stores {s : State} (bs : List Byte) (h : s.Inv) (h4 : 4 ≤ s.idx)
    (hle : s.idx + bs.length ≤ (contentLength s).toNat + 5) :
    ∃ t, Takes s bs (bs.map fun b => ⟨.feedAccStore b, false⟩) t ∧ t.idx = s.idx + bs.length := by
  induction bs generalizing s with
  | nil => exact ⟨s, .nil h, rfl⟩
  | cons b bs ih =>
    rw [List.length_cons] at hle
    have hone : Takes s [b] [⟨.feedAccStore b, false⟩] (stored (s.setInputs []) s.idx b (s.idx + 1) false) :=
      .of_row h rfl (.accStore h4 (by omega)) rfl
    have hlen : contentLength (stored (s.setInputs []) s.idx b (s.idx + 1) false) = contentLength s :=
      hone.placed.others 3 (.inl h4)
    obtain ⟨t, ht, hidx⟩ := ih hone.inv (by rw [stored_idx]; omega) (by rw [stored_idx, hlen]; omega)
    exact ⟨t, hone.append rfl ht, by rw [hidx, stored_idx, List.length_cons]; omega⟩

/-- The last step of a candidate, by the comparison of its byte with the checksum (42_content_checksum.md R104). -/
def lastEvent (sum b : Byte) : Event :=
  if b = sum then ⟨.feedAccLastOk b, true⟩ else ⟨.feedAccLastBad b, false⟩

theorem takes_last {s : State} (b : Byte) (h : s.Inv) (h4 : 4 ≤ s.idx) (hn : s.idx = (contentLength s).toNat + 5) :
    ∃ t, Takes s [b] [lastEvent (checksum (candidate s)) b] t ∧ t.idx = 0 := by
  rw [lastEvent]
  split
  · exact ⟨_, .of_row h rfl (.accLastOk h4 hn ‹_›) rfl, rfl⟩
  · exact ⟨_, .of_row h rfl (.accLastBad h4 hn ‹_›) rfl, rfl⟩

/-- As many bytes as remain end the candidate (10_state.md R24). -/
theorem takes_remaining {s : State} {bs : List Byte} (h : s.Inv) (h4 : 4 ≤ s.idx) (hlen : bs.length = remaining s) :
    ∃ es t, Takes s bs es t ∧ t.idx = 0 := by
  have hle := h.idx_le_position h4
  rw [remaining] at hlen
  obtain ⟨init, last, rfl⟩ := (List.eq_nil_or_concat' bs).resolve_left fun hnil => by
    rw [hnil, List.length_nil] at hlen
    omega
  rw [List.length_append, List.length_singleton] at hlen
  obtain ⟨t, ht, hidx⟩ := takes_stores init h h4 (by omega)
  have hlent : contentLength t = contentLength s := ht.placed.others 3 (.inl h4)
  obtain ⟨u, hu, huidx⟩ := takes_last last ht.inv (by omega) (by rw [hlent]; omega)
  exact ⟨_, u, ht.append hidx hu, huidx⟩

/-! ### Whole frames -/

theorem takes_header {s : State} (addr : Byte) (h : s.Inv) (hi : s.idx = 0) :
    ∃ t, Takes s [0x55, 0xAA, addr] [⟨.feedH0Hit, false⟩, ⟨.feedH1Hit, false⟩, ⟨.feedAddr addr, false⟩] t ∧
      t.idx = 3 := by
  have h0 := Takes.of_row (i := 1) (r := false) h hi (.h0Hit hi rfl) rfl
  have h1 := Takes.of_row (i := 2) (r := false) h0.inv rfl (.h1Hit rfl rfl) rfl
  have h2 := Takes.of_row (i := 3) (r := false) h1.inv rfl (.addr (b := addr) rfl) rfl
  exact ⟨_, (h0.append (by rw [hi]; rfl) h1).append (by rw [hi]; rfl) h2, rfl⟩

theorem frameEvents_body (addr len last : Byte) (mid : List Byte) (f : Byte → Event) :
    frameEvents (frameBody addr len mid ++ [last]) f =
      [⟨.feedH0Hit, false⟩, ⟨.feedH1Hit, false⟩, ⟨.feedAddr addr, false⟩] ++ [⟨.feedLenOk len, false⟩] ++
        (mid.map fun b => ⟨.feedAccStore b, false⟩) ++ [f last] := by
  rw [frameEvents, List.getLastD_concat]
  simp [frameBody]

/-- A frame-shaped sequence of an accepted length is taken whole, and its last byte decides the result. -/
theorem takes_frame {s : State} {addr len last : Byte} {mid : List Byte} (h : s.Inv) (hi : s.idx = 0)
    (hlen : len.toNat < s.params.lenLimit) (hmid : mid.length = len.toNat + 1) :
    ∃ t, Takes s (frameBody addr len mid ++ [last])
        (frameEvents (frameBody addr len mid ++ [last]) (lastEvent (checksum (frameBody addr len mid)))) t ∧
      t.idx = 0 := by
  obtain ⟨t3, h3, hi3⟩ := takes_header addr h hi
  have hone := Takes.of_row (i := 4) (r := false) h3.inv hi3 (.lenOk hi3 (h3.params ▸ hlen)) rfl
  have h4 := h3.append (by rw [hi3, hi]; rfl) hone
  have hlen4 : contentLength (stored (t3.setInputs []) 3 len 4 false) = len := readCell_stored_same ..
  obtain ⟨t5, h5, hi5⟩ := takes_stores mid hone.inv (by rw [stored_idx]) (by rw [stored_idx, hlen4]; omega)
  have hbody : Takes s (frameBody addr len mid) _ t5 := h4.append (by rw [hi]; rfl) h5
  have hidx5 : t5.idx = s.idx + (frameBody addr len mid).length := by
    rw [hi5, hi, frameBody_length, stored_idx]
    omega
  have hcand : candidate t5 = frameBody addr len mid := by
    rw [hbody.candidate_eq hidx5, candidate_of_idx_zero hi]
    rfl
  have hlen5 : contentLength t5 = len := (h5.placed.others 3 (.inl (by rw [stored_idx]; omega))).trans hlen4
  obtain ⟨t, hlast, hidx⟩ := takes_last last h5.inv (by rw [hi5, stored_idx]; omega)
    (by rw [hi5, hlen5, stored_idx]; omega)
  rw [hcand] at hlast
  rw [frameEvents_body]
  exact ⟨t, hbody.append hidx5 hlast, hidx⟩

/-! ### One flipped bit -/

theorem modify_append_cons {xs ys : List Byte} (y : Byte) (f : Byte → Byte) :
    (xs ++ y :: ys).modify xs.length f = xs ++ f y :: ys := by
  induction xs with
  | nil => rfl
  | cons x xs ih => exact congrArg (x :: ·) ih

theorem frameBody_append_cons (addr len y last : Byte) (xs ys : List Byte) :
    frameBody addr len (xs ++ y :: ys) ++ [last] = frameBody addr len xs ++ y :: (ys ++ [last]) := by
  simp [frameBody]

/-- A bit flipped outside the header and the length leaves the shape of the frame and spoils its checksum
(42_content_checksum.md R108). -/
theorem flipBit_body {addr len : Byte} {mid : List Byte} {p k : Nat} (hp : p = 2 ∨ 4 ≤ p ∧ p < mid.length + 5)
    (hk : k < 8) : ∃ addr' mid' last', mid'.length = mid.length ∧ last' ≠ checksum (frameBody addr' len mid') ∧
      flipBit (frameBody addr len mid ++ [checksum (frameBody addr len mid)]) p k =
        frameBody addr' len mid' ++ [last'] := by
  rcases hp with rfl | ⟨h4, hlt⟩
  · refine ⟨addr ^^^ (1#8 <<< k), mid, checksum (frameBody addr len mid), rfl, fun h => ?_, rfl⟩
    exact xor_bit_ne addr hk (checksum_insert_inj (xs := [0x55, 0xAA]) (ys := len :: mid) h.symm)
  · obtain ⟨j, rfl⟩ := Nat.exists_eq_add_of_le' h4
    rcases Nat.lt_or_ge j mid.length with hj | hj
    · obtain ⟨xs, y, ys, rfl, rfl⟩ : ∃ xs y ys, mid = xs ++ y :: ys ∧ xs.length = j :=
        ⟨mid.take j, mid[j], mid.drop (j + 1), by simp, by simp; omega⟩
      refine ⟨addr, xs ++ (y ^^^ (1#8 <<< k)) :: ys, checksum (frameBody addr len (xs ++ y :: ys)), by simp,
        fun h => ?_, ?_⟩
      · exact xor_bit_ne y hk (checksum_insert_inj (xs := frameBody addr len xs) (ys := ys) h.symm)
      · rw [frameBody_append_cons, frameBody_append_cons]
        exact modify_append_cons (xs := frameBody addr len xs) y _
    · obtain rfl : j = mid.length := by omega
      refine ⟨addr, mid, checksum (frameBody addr len mid) ^^^ (1#8 <<< k), rfl, xor_bit_ne _ hk, ?_⟩
      exact modify_append_cons (xs := frameBody addr len mid) (ys := []) _ _

/-! ### Back in `AwaitHeader0` -/

/-- Some of the first `n` bytes, at least one, bring the index back to 0. -/
def RealignsWithin (n : Nat) (s : State) (bs : List Byte) : Prop :=
  ∃ k, 1 ≤ k ∧ k ≤ n ∧ ∃ es t, feedBytes s (bs.take k) = some (es, t) ∧ t.idx = 0

theorem RealignsWithin.mono {n m : Nat} {s : State} {bs : List Byte} (h : RealignsWithin n s bs) (hle : n ≤ m) :
    RealignsWithin m s bs := by
  obtain ⟨k, h1, hk, hrun⟩ := h
  exact ⟨k, h1, hk.trans hle, hrun⟩

/-- A fed byte ends the candidate or makes it longer by one. -/
theorem State.Inv.exists_feed_step {s : State} (h : s.Inv) (b : Byte) :
    ∃ t, step (s.setInputs [.feed b]) = .next t ∧ t.Inv ∧ t.params = s.params ∧
      (t.idx = 0 ∨ t.idx = s.idx + 1) := by
  obtain ⟨t, ht⟩ := h.exists_step (.feed b)
  have hc := step_one_cases ht
  refine ⟨t, ht, hc.inv (h.setInputs _), hc.params, ?_⟩
  cases hc.move with
  | keep hx hi hb => exact nomatch hx
  | drop hi hb | finish c hx hi hb h4 => exact .inl hi
  | take c hx hi hb => exact .inr hi

/-- One byte more, when the candidate that is longer by it realigns within the rest. -/
theorem RealignsWithin.cons {n : Nat} {s : State} {b : Byte} {bs : List Byte} (h : s.Inv)
    (hrest : ∀ t, t.Inv → t.params = s.params → t.idx = s.idx + 1 → RealignsWithin n t bs) :
    RealignsWithin (n + 1) s (b :: bs) := by
  obtain ⟨t, hstep, hinv, hp, hzero | hsucc⟩ := h.exists_feed_step b
  · exact ⟨1, le_rfl, by omega, _, t, feedBytes_cons_some hstep rfl, hzero⟩
  · obtain ⟨k, _, hk, es, u, hrun, hidx⟩ := hrest t hinv hp hsucc
    exact ⟨k + 1, by omega, by omega, _, u, feedBytes_cons_some hstep hrun, hidx⟩

theorem realignsWithin_of_content {s : State} {bs : List Byte} (h : s.Inv) (h4 : 4 ≤ s.idx)
    (hlen : s.params.lenLimit + 1 ≤ bs.length) : RealignsWithin (s.params.lenLimit + 1) s bs := by
  have hlt := h.length_lt h4
  have hle := h.idx_le_position h4
  have hrem : remaining s = (contentLength s).toNat + 6 - s.idx := rfl
  obtain ⟨es, t, ht, hidx⟩ := takes_remaining (bs := bs.take (remaining s)) h h4
    (by rw [List.length_take]; omega)
  exact ⟨remaining s, by omega, by omega, es, t, ht.run, hidx⟩

theorem realignsWithin_of_length {s : State} {bs : List Byte} (h : s.Inv) (hi : s.idx = 3)
    (hlen : s.params.lenLimit + 2 ≤ bs.length) : RealignsWithin (s.params.lenLimit + 2) s bs := by
  match bs, hlen with
  | b :: bs, hlen =>
    rw [List.length_cons] at hlen
    refine .cons h fun t ht hp hidx => ?_
    rw [← hp] at hlen ⊢
    exact realignsWithin_of_content ht (by omega) (by omega)

theorem realignsWithin_of_address {s : State} {bs : List Byte} (h : s.Inv) (hi : s.idx = 2)
    (hlen : s.params.lenLimit + 3 ≤ bs.length) : RealignsWithin (s.params.lenLimit + 3) s bs := by
  match bs, hlen with
  | b :: bs, hlen =>
    rw [List.length_cons] at hlen
    refine .cons h fun t ht hp hidx => ?_
    rw [← hp] at hlen ⊢
    exact realignsWithin_of_length ht (by omega) (by omega)

/-! ### The obligations -/

/-- Settles O42: the frame is taken whole and its last byte is the checksum of the others; a rejected length ends the
candidate at the fourth byte. -/
theorem wellFormedFrameIsAccepted : Obligations.WellFormedFrameIsAccepted := by
  intro s F h hi hF
  obtain ⟨addr, len, mid, last, rfl, hmid, hlast⟩ := hF.exists_body
  have hlength : (frameBody addr len mid ++ [last]).length = len.toNat + 6 := by
    rw [List.length_append, frameBody_length, hmid]
    rfl
  refine ⟨fun hlt => ?_, fun hge => ?_⟩
  · obtain ⟨t, ht, hidx⟩ := takes_frame (addr := addr) (last := last) h hi (by omega) hmid
    have hplaced := ht.placed
    rw [hi] at hplaced
    refine ⟨t, ?_, hidx, fun k hk => ?_, fun a ha => hplaced.others a (.inr (by omega))⟩
    · rw [ht.run, frameEvents_body, frameEvents_body, lastEvent, if_pos hlast]
    · rw [← hplaced.taken k hk, Nat.zero_add]
  · obtain ⟨t3, h3, hi3⟩ := takes_header addr h hi
    have hover := feedBytes_singleton (s := t3) (b := len) (.lenOver hi3 (h3.params ▸ (by omega))) rfl
    exact ⟨_, feedBytes_append_some h3.run hover, rfl⟩

/-- Settles O43: the flipped sequence is still frame-shaped, so it is taken whole, and its last byte does not match. -/
theorem singleBitErrorIsDropped : Obligations.SingleBitErrorIsDropped := by
  intro s F p k h hi hF hlt hp hk
  obtain ⟨addr, len, mid, last, rfl, hmid, rfl⟩ := hF.exists_body
  rw [List.length_append, frameBody_length, List.length_singleton] at hlt hp
  obtain ⟨addr', mid', last', hmid', hne, hflip⟩ := flipBit_body (addr := addr) (len := len) hp hk
  obtain ⟨t, ht, hidx⟩ := takes_frame (addr := addr') (last := last') h hi (by omega) (hmid'.trans hmid)
  rw [hflip]
  refine ⟨t, ?_, hidx, ht.inv⟩
  rw [ht.run, frameEvents_body, frameEvents_body, lastEvent, if_neg hne]

/-- Settles O47: bytes short of the completion position are stored, and as many as remain end the candidate. -/
theorem candidateTakesRemainingBytes : Obligations.CandidateTakesRemainingBytes := by
  intro s bs h h4 hle
  rcases Nat.lt_or_ge bs.length (remaining s) with hlt | hge
  · obtain ⟨t, ht, hidx⟩ := takes_stores bs h h4 (by rw [remaining] at hlt; omega)
    exact ⟨_, t, ht.run, fun _ => hidx, fun heq => by omega, ht.placed.taken, ht.placed.others⟩
  · obtain ⟨es, t, ht, hidx⟩ := takes_remaining h h4 (Nat.le_antisymm hle hge)
    exact ⟨es, t, ht.run, fun hlt => by omega, fun _ => hidx, ht.placed.taken, ht.placed.others⟩

/-- Settles O48: an address and a length byte come before at most `LEN_LIMIT + 1` bytes of content and checksum. -/
theorem blockRealignsWithinBound : Obligations.BlockRealignsWithinBound := by
  intro s bs h h2 hlen
  rcases Nat.lt_or_ge s.idx 4 with hlt | hge
  · rcases Nat.lt_or_ge s.idx 3 with hlt3 | hge3
    · exact realignsWithin_of_address h (by omega) (by omega)
    · exact (realignsWithin_of_length h (by omega) (by omega)).mono (by omega)
  · exact (realignsWithin_of_content h hge (by omega)).mono (by omega)

end Sys2Proof.Machine
end

section
/-! Streams that start no frame or start it wrongly (70_reset_and_hazards.md R162, R166), and how long a completed frame
stays as it is (43_frame_output.md R118). -/

namespace Sys2Proof.Machine

/-! ### Noise -/

theorem feedBytes_noise {s : State} {bs : List Byte} (hi : s.idx = 0) (hbs : 0x55 ∉ bs) :
    ∃ t, feedBytes s bs = some (bs.map fun b => ⟨.feedH0Miss b, false⟩, t) ∧ t.idx = 0 ∧ t.buf = s.buf := by
  induction bs generalizing s with
  | nil => exact ⟨s, rfl, hi, rfl⟩
  | cons b bs ih =>
    obtain ⟨hb, hrest⟩ := not_or.1 (mt List.mem_cons.2 hbs)
    obtain ⟨t, ht, hidx, hbuf⟩ := ih (s := passOver (s.setInputs [])) hi hrest
    exact ⟨t, feedBytes_cons_of_row (.h0Miss hi (Ne.symm hb)) rfl ht, hidx, hbuf⟩

/-- Behind a first header byte the next byte is not the second one. -/
def NoHeaderPairAhead (s : State) (bs : List Byte) : Prop :=
  s.idx = 0 ∨ s.idx = 1 ∧ bs.head? ≠ some 0xAA

theorem feedBytes_without_pair {s : State} {bs : List Byte} (hr : 0 < s.params.bufSize)
    (hs : NoHeaderPairAhead s bs) (hbs : ¬ [0x55, 0xAA] <:+: bs) :
    ∃ es t, feedBytes s bs = some (es, t) ∧ t.idx ≤ 1 ∧ SameCellsBut 0 s t ∧ ∀ e ∈ es, e.ready = false := by
  induction bs generalizing s with
  | nil => exact ⟨[], s, rfl, by rcases hs with hi | ⟨hi, _⟩ <;> omega, fun _ _ => rfl, nofun⟩
  | cons b bs ih =>
    have hrest : ¬ [0x55, 0xAA] <:+: bs := fun h => hbs (h.trans (List.suffix_cons b bs).isInfix)
    obtain ⟨op, t, hrow, hexec, hparams, hsame, hready, ht⟩ : ∃ op t, FeedRow s b op ∧
        exec op (s.setInputs []) = .next t ∧ t.params = s.params ∧ SameCellsBut 0 s t ∧ t.frameReady = false ∧
        NoHeaderPairAhead t bs := by
      rcases hs with hi | ⟨hi, hhead⟩
      · by_cases hb : b = 0x55
        · refine ⟨_, _, .h0Hit hi hb, takeByte_of_lt (s.setInputs []) 0 0x55 1 false hr, rfl,
            stored_sameCellsBut (s.setInputs []) 0 0x55 1 false, rfl, .inr ⟨rfl, fun hhead => ?_⟩⟩
          obtain ⟨cs, rfl⟩ := List.head?_eq_some_iff.1 hhead
          exact hbs (hb ▸ (List.prefix_append [0x55, 0xAA] cs).isInfix)
        · exact ⟨_, _, .h0Miss hi hb, rfl, rfl, fun _ _ => rfl, rfl, .inl hi⟩
      · exact ⟨_, _, .h1Miss hi fun hb => hhead (by rw [hb]; rfl), rfl, rfl, fun _ _ => rfl, rfl, .inl rfl⟩
    obtain ⟨es, u, hrun, hidx, hcells, hes⟩ := ih (hparams ▸ hr) ht hrest
    exact ⟨_, u, feedBytes_cons_of_row hrow hexec hrun, hidx, fun a ha => (hcells a ha).trans (hsame a ha),
      List.forall_mem_cons.2 ⟨hready, hes⟩⟩

/-! ### A completed frame stays until the next address -/

/-- While no `FEED.ADDR` is performed the stores that happen are those of the header bytes, which are there already
(43_frame_output.md R118). -/
theorem sameCells_of_stepCase {s t : State} {x : Stimulus} {op : Instr} (h : StepCase s x op t) (hi : s.idx ≤ 2)
    (h0 : readCell s 0 = 0x55) (h1 : readCell s 1 = 0xAA) (hop : ∀ b, op ≠ .feedAddr b) :
    SameCells s t ∧ t.idx ≤ 2 := by
  have hstore {k i : Nat} {b : Byte} {r : Bool} (hk : readCell s k = b) :
      SameCells s (stored (afterFetch s) k b i r) := fun a => by
    rw [readCell_stored]
    split
    · subst_vars; rfl
    · rfl
  cases h with
  | h0Hit => exact ⟨hstore h0, Nat.le_succ 1⟩
  | h1Hit => exact ⟨hstore h1, Nat.le_refl 2⟩
  | addr b => exact absurd rfl (hop b)
  | lenOk b hi' | lenOver b hi' | accStore b hi' | accLastOk b hi' | accLastBad b hi' => omega
  | h0Miss | readCell | readFree | idle => exact ⟨fun _ => rfl, hi⟩
  | h1Miss | reset => exact ⟨fun _ => rfl, Nat.zero_le 2⟩

theorem sameCells_of_feedBytes {s t : State} {bs : List Byte} {es : List Event} (hi : s.idx ≤ 2)
    (h0 : readCell s 0 = 0x55) (h1 : readCell s 1 = 0xAA) (hrun : feedBytes s bs = some (es, t))
    (hop : ∀ e ∈ es, ∀ b, e.op ≠ .feedAddr b) : SameCells s t := by
  induction bs generalizing s es with
  | nil => cases hrun; exact fun _ => rfl
  | cons b bs ih =>
    obtain ⟨u, es', hstep, hrest, rfl⟩ := runInputs_cons_some hrun
    obtain ⟨hfirst, hothers⟩ := List.forall_mem_cons.1 hop
    obtain ⟨hsame, hidx⟩ := sameCells_of_stepCase (step_one_cases hstep) hi h0 h1 hfirst
    exact fun a => (ih hidx ((hsame 0).trans h0) ((hsame 1).trans h1) hrest hothers a).trans (hsame a)

theorem FeedRow.idx_of_addr {s : State} {b c : Byte} (h : FeedRow s b (.feedAddr c)) : s.idx = 2 := by
  cases h with
  | addr hi => exact hi

/-- A `FEED.ADDR` is performed at `idx = 2`, and the index rises by at most one in a step. -/
theorem not_feedAddr_of_feedBytes {s t : State} {bs : List Byte} {es : List Event} (hle : s.idx + bs.length ≤ 2)
    (hrun : feedBytes s bs = some (es, t)) : ∀ e ∈ es, ∀ b, e.op ≠ .feedAddr b := by
  induction bs generalizing s es with
  | nil => cases hrun; exact nofun
  | cons b bs ih =>
    rw [List.length_cons] at hle
    obtain ⟨u, es', hstep, hrest, rfl⟩ := runInputs_cons_some hrun
    have hmove : u.idx = s.idx ∨ u.idx = s.idx + 1 ∨ u.idx = 0 := (step_one_cases hstep).move.idx_cases
    refine List.forall_mem_cons.2 ⟨fun c hc => ?_, ih (by omega) hrest⟩
    have := (operationOf_feed_iff.1 hc).idx_of_addr
    omega

/-! ### The obligations -/

/-- Settles O44: every byte of the stream is a miss of the first header byte. -/
theorem noiseWithoutHeaderByteIsIgnored : Obligations.NoiseWithoutHeaderByteIsIgnored :=
  fun _ _ hi hbs => feedBytes_noise hi hbs

/-- Settles O45: after a `0x55` the next byte is a miss, since the stream does not hold the pair. -/
theorem streamWithoutHeaderPairStaysInHeaderStates : Obligations.StreamWithoutHeaderPairStaysInHeaderStates :=
  fun _ _ h hi hbs => feedBytes_without_pair (hi ▸ h.idx_lt_bufSize) (.inl hi) hbs

/-- Settles O46: the stray byte is taken for the header, the frame's own `0x55` is missed behind it, and what follows is
noise. -/
theorem strayHeaderByteLosesFrame : Obligations.StrayHeaderByteLosesFrame := by
  intro s F h hi hF hno
  obtain ⟨addr, len, mid, last, rfl, -, -⟩ := hF.exists_body
  have hnoise : 0x55 ∉ (frameBody addr len mid ++ [last]).drop 1 :=
    fun hmem => (List.mem_cons.1 hmem).elim (by decide) hno
  have hr : 0 < s.params.bufSize := hi ▸ h.idx_lt_bufSize
  obtain ⟨t, ht, hidx, hbuf⟩ :=
    feedBytes_noise (s := resynchronize ((stored (s.setInputs []) 0 0x55 1 false).setInputs [])) rfl hnoise
  have hmiss := feedBytes_cons_of_row (s := stored (s.setInputs []) 0 0x55 1 false) (b := 0x55)
    (.h1Miss rfl (by decide)) rfl ht
  refine ⟨t, feedBytes_cons_of_row (.h0Hit hi rfl) (takeByte_of_lt (s.setInputs []) 0 0x55 1 false hr) hmiss, hidx,
    fun a ha => ?_⟩
  rw [readCell_of_buf_eq hbuf]
  exact readCell_stored_other (s.setInputs []) 0 0x55 1 false ha

/-- Settles O51: the header bytes are rewritten with the values they have, and an address comes third at the earliest. -/
theorem completedFrameIntactUntilNextAddress : Obligations.CompletedFrameIntactUntilNextAddress :=
  fun _ _ _ _ hi h0 h1 hrun => ⟨sameCells_of_feedBytes (by omega) h0 h1 hrun,
    fun hlen => not_feedAddr_of_feedBytes (by omega) hrun⟩

end Sys2Proof.Machine
end

section
/-! Runs compared: what a run does not depend on (10_state.md R31), what is invisible in it (70_reset_and_hazards.md
R165), and the same run presented as pending inputs. -/

namespace Sys2Proof.Machine

/-! ### The stores at the index, in a state whose index is known -/

theorem exec_feedAccStore_of_idx {s : State} {k : Nat} (b : Byte) (hk : s.idx = k) :
    exec (.feedAccStore b) s = takeByte s k b (k + 1) false := hk ▸ rfl

theorem exec_feedAccLastOk_of_idx {s : State} {k : Nat} (b : Byte) (hk : s.idx = k) :
    exec (.feedAccLastOk b) s = takeByte s k b 0 true := hk ▸ rfl

theorem exec_feedAccLastBad_of_idx {s : State} {k : Nat} (b : Byte) (hk : s.idx = k) :
    exec (.feedAccLastBad b) s = takeByte s k b 0 false := hk ▸ rfl

/-! ### States that agree on the candidate -/

theorem SameCandidate.of_idx_zero {s t : State} (hp : s.params = t.params) (hs : s.idx = 0) (ht : t.idx = 0)
    (hr : s.frameReady = t.frameReady) : SameCandidate s t :=
  ⟨hp, hs.trans ht.symm, hr, fun a ha => by omega⟩

theorem SameCandidate.setInputs {s t : State} (h : SameCandidate s t) (xs : List Stimulus) :
    SameCandidate (s.setInputs xs) (t.setInputs xs) :=
  ⟨h.params, h.idx, h.frameReady, h.cells⟩

theorem SameCandidate.stored {s t : State} (h : SameCandidate s t) (b : Byte) {i : Nat} (r : Bool)
    (hi : i ≤ s.idx + 1) : SameCandidate (stored s s.idx b i r) (stored t s.idx b i r) where
  params := h.params
  idx := rfl
  frameReady := rfl
  cells a ha := by
    rw [stored_idx] at ha
    rw [readCell_stored, readCell_stored]
    split
    · rfl
    · exact h.cells a (by omega)

/-- Cell 3 decides a row only where the candidate has written it. -/
theorem SameCandidate.feedRow {s t : State} {b : Byte} {op : Instr} (h : SameCandidate s t) (row : FeedRow s b op) :
    FeedRow t b op := by
  have hidx := h.idx
  have hlen (h4 : 4 ≤ s.idx) : contentLength s = contentLength t := h.cells 3 h4
  have hcand : candidate s = candidate t := by
    rw [candidate, candidate, ← hidx]
    exact cells_congr h.cells
  cases row with
  | h0Hit hi hb => exact .h0Hit (hidx ▸ hi) hb
  | h0Miss hi hb => exact .h0Miss (hidx ▸ hi) hb
  | h1Hit hi hb => exact .h1Hit (hidx ▸ hi) hb
  | h1Miss hi hb => exact .h1Miss (hidx ▸ hi) hb
  | addr hi => exact .addr (hidx ▸ hi)
  | lenOk hi hb => exact .lenOk (hidx ▸ hi) (h.params ▸ hb)
  | lenOver hi hb => exact .lenOver (hidx ▸ hi) (h.params ▸ hb)
  | accStore hi hn => rw [hlen hi] at hn; exact .accStore (hidx ▸ hi) (hidx ▸ hn)
  | accLastOk hi hn hb => rw [hlen hi] at hn; exact .accLastOk (hidx ▸ hi) (hidx ▸ hn) (hcand ▸ hb)
  | accLastBad hi hn hb => rw [hlen hi] at hn; exact .accLastBad (hidx ▸ hi) (hidx ▸ hn) (hcand ▸ hb)

theorem SameCandidate.operationOf_eq {s t : State} (h : SameCandidate s t) (b : Byte) :
    operationOf s (.feed b) = operationOf t (.feed b) :=
  (h.feedRow (feed_row s b)).operationOf_eq.symm

/-- Two steps that end alike, in states that agree on the candidate if they give states. -/
inductive SameOutcome : Host.Outcome State Fault Refusal → Host.Outcome State Fault Refusal → Prop
  | next {u v : State} (h : SameCandidate u v) : SameOutcome (.next u) (.next v)
  | fault (r : Fault) : SameOutcome (.fault r) (.fault r)

theorem SameCandidate.sameOutcome_takeByte {s t : State} (h : SameCandidate s t) {k : Nat} (hk : s.idx = k)
    (b : Byte) {i : Nat} (r : Bool) (hi : i ≤ k + 1) : SameOutcome (takeByte s k b i r) (takeByte t k b i r) := by
  subst hk
  rw [takeByte_eq, takeByte_eq, h.params]
  split
  · exact .next (h.stored b r hi)
  · exact .fault _

theorem SameCandidate.sameOutcome_step {s t : State} (h : SameCandidate s t) (b : Byte) :
    SameOutcome (step (s.setInputs [.feed b])) (step (t.setInputs [.feed b])) := by
  have row := feed_row s b
  have hin := h.setInputs []
  rw [step_feed, step_feed, ← h.operationOf_eq b]
  generalize operationOf s (.feed b) = op at row
  cases row with
  | h0Hit hi => exact hin.sameOutcome_takeByte hi _ _ (by decide)
  | h1Hit hi => exact hin.sameOutcome_takeByte hi _ _ (by decide)
  | addr hi => exact hin.sameOutcome_takeByte hi _ _ (by decide)
  | lenOk hi => exact hin.sameOutcome_takeByte hi _ _ (by decide)
  | accStore =>
    rw [exec_feedAccStore_of_idx b hin.idx.symm]
    exact hin.sameOutcome_takeByte rfl b false (Nat.le_refl (s.idx + 1))
  | accLastOk =>
    rw [exec_feedAccLastOk_of_idx b hin.idx.symm]
    exact hin.sameOutcome_takeByte rfl b true (Nat.zero_le _)
  | accLastBad =>
    rw [exec_feedAccLastBad_of_idx b hin.idx.symm]
    exact hin.sameOutcome_takeByte rfl b false (Nat.zero_le _)
  | h0Miss hi => exact .next (.of_idx_zero h.params hi (h.idx.symm.trans hi) rfl)
  | h1Miss | lenOver => exact .next (.of_idx_zero h.params rfl rfl rfl)

/-- Two runs that end alike, in states that agree on the candidate if they end in states. -/
inductive SameRun : Option (List Event × State) → Option (List Event × State) → Prop
  | none : SameRun none none
  | some (es : List Event) {u v : State} (h : SameCandidate u v) : SameRun (some (es, u)) (some (es, v))

theorem feedBytes_cons_of_fault {s : State} {b : Byte} {r : Fault} (bs : List Byte)
    (h : step (s.setInputs [.feed b]) = .fault r) : feedBytes s (b :: bs) = none := by
  rw [feedBytes_cons]
  simp only [runInputs, h]

theorem SameCandidate.sameRun {s t : State} (bs : List Byte) (h : SameCandidate s t) :
    SameRun (feedBytes s bs) (feedBytes t bs) := by
  induction bs generalizing s t with
  | nil => exact .some [] h
  | cons b bs ih =>
    have hstep := h.sameOutcome_step b
    generalize hs : step (s.setInputs [.feed b]) = o at hstep
    generalize ht : step (t.setInputs [.feed b]) = o' at hstep
    cases hstep with
    | fault r => rw [feedBytes_cons_of_fault bs hs, feedBytes_cons_of_fault bs ht]; exact .none
    | @next u v huv =>
      rw [feedBytes_cons_of_next bs hs, feedBytes_cons_of_next bs ht, h.operationOf_eq b, huv.frameReady]
      have hrun := ih huv
      generalize feedBytes u bs = q at hrun ⊢
      generalize feedBytes v bs = q' at hrun ⊢
      cases hrun with
      | none => exact .none
      | some es hend => exact .some _ hend

/-! ### States that agree on the index and the buffer -/

/-- Two states that agree on everything the block's moves depend on. -/
structure SameBlock (s t : State) : Prop where
  params : s.params = t.params
  idx : s.idx = t.idx
  buf : s.buf = t.buf

theorem SameBlock.operationOf_eq {s t : State} (h : SameBlock s t) (x : Stimulus) :
    operationOf s x = operationOf t x := by
  have hcell (a : Nat) : readCell s a = readCell t a := readCell_of_buf_eq h.buf a
  have hcand : candidate s = candidate t := candidate_of_keep h.idx h.buf
  rw [operationOf, operationOf, decodeContext, decodeContext, h.params, h.idx, hcand, contentLength,
    contentLength, hcell]

theorem SameBlock.exists_takeByte {s t s' : State} (h : SameBlock s t) {a : Nat} {b : Byte} {i : Nat} {r : Bool}
    (hs : takeByte s a b i r = .next s') :
    ∃ t', takeByte t a b i r = .next t' ∧ SameBlock s' t' ∧ s'.frameReady = t'.frameReady := by
  obtain ⟨ha, rfl⟩ := takeByte_next _ _ _ _ _ hs
  exact ⟨_, takeByte_of_lt t a b i r (h.params ▸ ha), ⟨h.params, rfl, congrArg (Memory.write · a b) h.buf⟩, rfl⟩

/-- An operation that is not quiet moves both alike and gives both the same result. -/
theorem SameBlock.exists_exec {s t s' : State} {i : Instr} (h : SameBlock s t) (hi : i.isQuiet = false)
    (hs : exec i s = .next s') : ∃ t', exec i t = .next t' ∧ SameBlock s' t' ∧ s'.frameReady = t'.frameReady := by
  cases i with
  | feedH0Hit | feedH1Hit | feedAddr b | feedLenOk b => exact h.exists_takeByte hs
  | feedAccStore b =>
    rw [exec_feedAccStore_of_idx b h.idx.symm]
    exact h.exists_takeByte hs
  | feedAccLastOk b =>
    rw [exec_feedAccLastOk_of_idx b h.idx.symm]
    exact h.exists_takeByte hs
  | feedAccLastBad b =>
    rw [exec_feedAccLastBad_of_idx b h.idx.symm]
    exact h.exists_takeByte hs
  | feedH0Miss b => cases hs; exact ⟨_, rfl, ⟨h.params, h.idx, h.buf⟩, rfl⟩
  | feedH1Miss b | feedLenOver b | reset => cases hs; exact ⟨_, rfl, ⟨h.params, rfl, h.buf⟩, rfl⟩
  | read | idle => exact nomatch hi

theorem isQuiet_operationOf (s : State) (x : Stimulus) : (operationOf s x).isQuiet = x.isQuiet := by
  match x with
  | .edge true _ _ | .edge false false _ | .read _ => rfl
  | .edge false true b =>
    have row := feed_row s b
    change (operationOf s (.feed b)).isQuiet = false
    generalize operationOf s (.feed b) = op at row
    cases row <;> rfl

/-- An idle edge and a read leave the block as it is (43_frame_output.md R115, R116). -/
theorem sameBlock_of_quiet {s t : State} {x : Stimulus} {op : Instr} (h : StepCase s x op t)
    (hx : x.isQuiet = true) : SameBlock t s := by
  cases h with
  | readCell | readFree | idle => exact ⟨rfl, rfl, rfl⟩
  | _ => exact nomatch hx

theorem runInputs_filter_quiet {s t u : State} {xs : List Stimulus} {es : List Event} (h : SameBlock s u)
    (hrun : runInputs s xs = some (es, t)) :
    ∃ v, runInputs u (xs.filter fun x => !x.isQuiet) = some (es.filter fun e => !e.op.isQuiet, v) ∧
      SameBlock t v := by
  induction xs generalizing s u es with
  | nil => cases hrun; exact ⟨u, rfl, h⟩
  | cons x xs ih =>
    obtain ⟨s1, es', hstep, hrest, rfl⟩ := runInputs_cons_some hrun
    have hop : (⟨operationOf s x, s1.frameReady⟩ : Event).op.isQuiet = x.isQuiet := isQuiet_operationOf s x
    cases hx : x.isQuiet with
    | true =>
      have hsame : SameBlock s1 (s.setInputs [x]) := sameBlock_of_quiet (step_one_cases hstep) hx
      rw [List.filter_cons_of_neg (by simp [hx]), List.filter_cons_of_neg (by simp [hop, hx])]
      exact ih ⟨hsame.params.trans h.params, hsame.idx.trans h.idx, hsame.buf.trans h.buf⟩ hrest
    | false =>
      obtain ⟨u1, hu, hsame, hready⟩ := SameBlock.exists_exec (s := s.setInputs []) (t := u.setInputs [])
        ⟨h.params, h.idx, h.buf⟩ (hop.trans hx) hstep
      obtain ⟨v, hv, hend⟩ := ih hsame hrest
      rw [List.filter_cons_of_pos (by simp [hx]), List.filter_cons_of_pos (by simp [hop, hx])]
      refine ⟨v, ?_, hend⟩
      rw [h.operationOf_eq x] at hu ⊢
      rw [hready]
      exact runInputs_cons_of_next_some hu hv

/-! ### Pending inputs -/

theorem takeByte_setInputs {s t : State} {a : Nat} {b : Byte} {i : Nat} {r : Bool} (xs : List Stimulus)
    (h : takeByte s a b i r = .next t) : takeByte (s.setInputs xs) a b i r = .next (t.setInputs xs) := by
  obtain ⟨ha, rfl⟩ := takeByte_next _ _ _ _ _ h
  exact takeByte_of_lt (s.setInputs xs) a b i r ha

/-- No operation looks at the inputs that are still pending. -/
theorem exec_setInputs {s t : State} {i : Instr} (xs : List Stimulus) (h : exec i s = .next t) :
    exec i (s.setInputs xs) = .next (t.setInputs xs) := by
  cases i with
  | feedH0Hit | feedH1Hit | feedAddr | feedLenOk | feedAccStore | feedAccLastOk | feedAccLastBad =>
    exact takeByte_setInputs xs h
  | feedH0Miss | feedH1Miss | feedLenOver | reset | idle => cases h; rfl
  | read a =>
    rcases Nat.lt_or_ge a s.params.bufSize with ha | ha
    · rw [exec_read_of_lt ha] at h
      cases h
      exact exec_read_of_lt (s := s.setInputs xs) ha
    · rw [exec_read_of_ge ha] at h
      cases h
      exact exec_read_of_ge (s := s.setInputs xs) ha

theorem step_setInputs_cons {s t : State} {x : Stimulus} (xs : List Stimulus) (h : step (s.setInputs [x]) = .next t) :
    step (s.setInputs (x :: xs)) = .next (t.setInputs xs) :=
  exec_setInputs (s := s.setInputs []) xs h

theorem core_run_succ {s t : State} (k : Nat) (h : step s = .next t) :
    Host.Core.run Sys2Proof.core (k + 1) s = Host.Core.run Sys2Proof.core k t := by
  have hcore : Sys2Proof.core.step s = .next t := h
  simp only [Host.Core.run, hcore]

/-! ### The obligations -/

/-- Settles O50: both runs select the same rows, and the cells they store go into both candidates. -/
theorem resultsIgnoreUnwrittenCells : Obligations.ResultsIgnoreUnwrittenCells := by
  intro bs s t h
  have hrun := h.sameRun bs
  generalize feedBytes s bs = o at hrun ⊢
  generalize feedBytes t bs = o' at hrun ⊢
  cases hrun with
  | none => exact ⟨rfl, nofun⟩
  | some es hend =>
    refine ⟨rfl, fun _ _ _ _ hu hv => ?_⟩
    cases hu
    cases hv
    exact hend

/-- Settles O49: a simulation in which a quiet input moves the run that has it and not the other. -/
theorem idleAndReadsAreInvisible : Obligations.IdleAndReadsAreInvisible := by
  intro s t xs es hrun
  obtain ⟨u, hu, hsame⟩ := runInputs_filter_quiet ⟨rfl, rfl, rfl⟩ hrun
  exact ⟨u, hu, hsame.idx.symm, hsame.buf.symm⟩

/-- Settles O52: each step of the run is the step that takes the first of the pending inputs. -/
theorem pendingInputsRunInOrder : Obligations.PendingInputsRunInOrder := by
  intro s t xs rest es hrun
  induction xs generalizing s es with
  | nil => cases hrun; rfl
  | cons x xs ih =>
    obtain ⟨u, es', hstep, hrest, rfl⟩ := runInputs_cons_some hrun
    exact (core_run_succ xs.length (step_setInputs_cons (xs ++ rest) hstep)).trans (ih u es' hrest)

/-- Settles O56: a read leaves the state the same for every later byte, whatever its address. -/
theorem undutifulReadIsNoFault : Obligations.UndutifulReadIsNoFault := by
  intro s a
  obtain ⟨t, ht, hidx, hbuf, hcells, hready, hparams, -, hbyte, -⟩ :=
    readReturnsCellAndChangesNothing (s.setInputs []) a
  have hsame : SameCandidate t s := ⟨hparams, hidx, hready, fun c _ => hcells c⟩
  exact ⟨t, ht, fun ha => (hbyte ha).1, hbuf, fun bs => (resultsIgnoreUnwrittenCells bs t s hsame).1⟩

end Sys2Proof.Machine
end

section
/-! The frame a reader holds (43_frame_output.md R117, R118) and what a reader that keeps its duties is owed (R122). -/

namespace Sys2Proof.Machine

/-! ### The frame held -/

/-- While `frame_ready` is true the buffer holds a well-formed frame (43_frame_output.md R117). -/
theorem State.ReadyInv.wellFormedFrame {s : State} (h : s.ReadyInv) (hr : s.frameReady = true) :
    WellFormedFrame (frameInBuffer s) where
  long := by rw [frameInBuffer_length]; omega
  header0 := by rw [frameInBuffer, cells_getElem? s (by omega), h.header0 hr]
  header1 := by rw [frameInBuffer, cells_getElem? s (by omega), h.header1 hr]
  length := by
    rw [frameInBuffer_length, Nat.add_sub_cancel, frameInBuffer, cells_getElem? s (by omega)]
    rfl
  sum := by
    have htake : (frameInBuffer s).take ((contentLength s).toNat + 5) = cells s ((contentLength s).toNat + 5) := by
      rw [frameInBuffer, cells_succ]
      exact List.take_left' (cells_length s _)
    rw [frameInBuffer_length, show (contentLength s).toNat + 6 - 1 = (contentLength s).toNat + 5 from rfl, htake,
      frameInBuffer, cells_getElem? s (by omega), h.sum hr]

theorem frameHeld_none (s : State) : FrameHeld none s := nofun

theorem frameHeld_of_ready {s : State} (h : s.ReadyInv) (hr : s.frameReady = true) :
    FrameHeld (some (frameInBuffer s)) s := by
  intro f hf
  cases hf
  have hlen := h.length hr
  refine ⟨h.wellFormedFrame hr, by rw [frameInBuffer_length]; omega, by rw [h.idle hr]; omega, rfl⟩

/-- The frame held lies in the buffer from its header on, so no step but a `FEED.ADDR` touches it. -/
theorem FrameHeld.of_stepCase {F : Option (List Byte)} {s t : State} {x : Stimulus} {op : Instr} (hF : FrameHeld F s)
    (hc : StepCase s x op t) (hop : ∀ b, op ≠ .feedAddr b) : FrameHeld F t := by
  intro f hf
  obtain ⟨hwf, hlen, hi, hbuf⟩ := hF f hf
  have hcell {k : Nat} {b : Byte} (hk : k < 6) (hb : f[k]? = some b) : readCell s k = b := by
    rw [hbuf, frameInBuffer, cells_getElem? s (by omega)] at hb
    exact Option.some.inj hb
  have h0 : readCell s 0 = 0x55 := hcell (by decide) hwf.header0
  have h1 : readCell s 1 = 0xAA := hcell (by decide) hwf.header1
  obtain ⟨hsame, hidx⟩ := sameCells_of_stepCase hc hi h0 h1 hop
  exact ⟨hwf, hc.params ▸ hlen, hidx, hbuf.trans (frameInBuffer_congr hsame).symm⟩

/-- The exact limit of duty (b): what is taken up is in the buffer, and what is kept has not been touched. -/
theorem frameHeld_heldUntilAddress {F : Option (List Byte)} {s t : State} {x : Stimulus} {op : Instr} (h : s.Inv)
    (hF : FrameHeld F s) (hc : StepCase s x op t) : FrameHeld (heldUntilAddress F op t) t := by
  cases op with
  | feedAccLastOk b =>
    have hready : t.frameReady = true := hc.frameReady_iff.2 (.inl ⟨b, rfl⟩)
    have hinv : t.ReadyInv := by
      cases hc with
      | accLastOk _ hi hn hb _ => exact h.afterFetch.readyInv_stored hi hn hb true
    exact frameHeld_of_ready hinv hready
  | feedAddr | feedLenOk | feedAccStore | feedAccLastBad => exact frameHeld_none t
  | feedH0Hit | feedH0Miss | feedH1Hit | feedH1Miss | feedLenOver | reset | read | idle =>
    exact hF.of_stepCase hc nofun

/-! ### A read that the duties allow -/

/-- A read of a frame that is held, within the frame, returns the frame's byte. -/
theorem FrameHeld.read {F : Option (List Byte)} {s : State} {a : Nat} (hF : FrameHeld F s) (h : s.Inv)
    (hmay : MayPresent F s (.read a)) :
    ∃ f u, F = some f ∧ step (s.setInputs [.read a]) = .next u ∧ f[a]? = some u.rdData := by
  obtain ⟨hsome, hle⟩ := hmay a rfl
  obtain ⟨f, rfl⟩ := Option.isSome_iff_exists.1 hsome
  obtain ⟨-, hlen, -, rfl⟩ := hF f rfl
  have hroom := h.params.room
  rw [frameInBuffer_length] at hlen
  have hlt : a < s.params.bufSize := by omega
  exact ⟨_, _, rfl, exec_read_of_lt (s := s.setInputs []) hlt, cells_getElem? s (by omega)⟩

/-- The reads of a reader that keeps its duties by a rule which holds a frame no longer than the exact one. -/
theorem dutiful_read {held : Option (List Byte) → Instr → State → Option (List Byte)}
    (hheld : ∀ F op t, held F op t = none ∨ held F op t = heldUntilAddress F op t) {F : Option (List Byte)} {s : State}
    {ys zs : List Stimulus} {a : Nat} (h : s.Inv) (hF : FrameHeld F s)
    (hd : ReaderKeepsDuties held F s (ys ++ .read a :: zs)) :
    ∃ es t f u, runInputs s ys = some (es, t) ∧ frameAfter held F s ys = some f ∧
      step (t.setInputs [.read a]) = .next u ∧ f[a]? = some u.rdData := by
  induction ys generalizing F s with
  | nil =>
    obtain ⟨f, u, hf, hu, hbyte⟩ := hF.read h hd.1
    exact ⟨[], s, f, u, rfl, hf, hu, hbyte⟩
  | cons x ys ih =>
    obtain ⟨s1, hstep⟩ := h.exists_step x
    have hc := step_one_cases hstep
    have hF1 : FrameHeld (held F (operationOf s x) s1) s1 := by
      rcases hheld F (operationOf s x) s1 with heq | heq
      · rw [heq]; exact frameHeld_none s1
      · rw [heq]; exact frameHeld_heldUntilAddress (h.setInputs [x]) hF hc
    obtain ⟨es, t, f, u, hrun, hf, hu, hbyte⟩ := ih (hc.inv (h.setInputs [x])) hF1 (hd.2 s1 hstep)
    exact ⟨_, t, f, u, runInputs_cons_of_next_some hstep hrun, (frameAfter_cons_of_next ys hstep).trans hf, hu,
      hbyte⟩

/-! ### The obligations -/

/-- Settles O53: the frame is taken up when the buffer holds it, and let go before anything touches it. -/
theorem stepKeepsReadableFrame : Obligations.StepKeepsReadableFrame :=
  fun _ _ _ h hF hstep => frameHeld_heldUntilAddress h hF (step_cases hstep)

/-- Settles O54: the frame held stays in the buffer along the stream up to the read. -/
theorem dutifulReaderReadsCompletedFrame : Obligations.DutifulReaderReadsCompletedFrame := by
  rintro F s _ ys zs a h hF hd rfl
  exact dutiful_read (fun _ _ _ => .inr rfl) h hF hd

/-- Settles O55: the simple rule holds a frame no longer than the exact one. -/
theorem readingBeforeNextFeedSuffices : Obligations.ReadingBeforeNextFeedSuffices := by
  rintro F s _ ys zs a h hF hd rfl
  exact dutiful_read (fun _ op t => heldUntilFeed_le (.inr rfl) op t) h hF hd

end Sys2Proof.Machine
end
